-- ==== Sys2Proof/Word.lean ====
section
/-! DEFINITION. The words of adpcm_core and the values on its ports (spec/10_state.md R28, spec/30_encoding.md R60, R61, R63, R64). -/

namespace Sys2Proof

/-- A sample, or a `predicted_sample`: a 16-bit two's-complement word, any pattern legal (R21, R60). -/
abbrev Sample := BitVec 16

/-- A code: a 4-bit unsigned value, bit 3 the sign, bits 2 to 0 the magnitude (R61). -/
abbrev Code := BitVec 4

/-- A `step_index`, as its register and its ports hold it: 7 bits, unsigned (R22, R28). -/
abbrev StepIndex := BitVec 7

/-- One channel's inputs in one cycle, packed: ECMD (R63) or DCMD (R64). -/
abbrev Bundle := BitVec 42

/-- The two channels of the block (R20). -/
inductive Channel where
  | encoder
  | decoder
  deriving DecidableEq, Repr

/-- The values on the input ports at one rising edge, one field per input port of R28 but the clock.
`rst` is one signal for both channels. -/
structure Inputs where
  rst : Bool
  encInValid : Bool
  encInSample : Sample
  encLoad : Bool
  encLoadPred : Sample
  encLoadIndex : StepIndex
  decInValid : Bool
  decInCode : Code
  decLoad : Bool
  decLoadPred : Sample
  decLoadIndex : StepIndex
  deriving DecidableEq, Repr, Inhabited

/-- The values on the output ports, one field per output port of R28. -/
structure Outputs where
  encOutCode : Code
  encOutValid : Bool
  encStatePred : Sample
  encStateIndex : StepIndex
  decOutSample : Sample
  decOutValid : Bool
  decStatePred : Sample
  decStateIndex : StepIndex
  deriving DecidableEq, Repr

end Sys2Proof
end

