-- ==== Sys2Proof/Syntax.lean ====
section
/-! DEFINITION. The operations of adpcm_core: one constructor per row of spec/opcode_table.json. -/

namespace Sys2Proof

/-- What one channel does in one cycle (00_scope.md R11, "operation"); RST is one operation of the whole block (R66).
An operand has the width of the port it comes from (R67), so every operand value is one the port can carry. -/
inductive Instr where
  /-- RST: reset both channels (43_state_control.md R120). -/
  | rst
  /-- LDE p, i: load the encoder channel's state (R121); `i` may be 0 to 127. -/
  | lde (p : Sample) (i : StepIndex)
  /-- ENC s: encode one sample (41_encode.md R100). -/
  | enc (s : Sample)
  /-- ENOP: the encoder channel is idle (R101). -/
  | enop
  /-- LDD p, i: load the decoder channel's state (R122); `i` may be 0 to 127. -/
  | ldd (p : Sample) (i : StepIndex)
  /-- DEC c: decode one code (42_decode.md R110). -/
  | dec (c : Code)
  /-- DNOP: the decoder channel is idle (R111). -/
  | dnop
  deriving DecidableEq, Repr

end Sys2Proof
end

