-- ==== Sys2Proof/WellFormed.lean ====
section
/-! DEFINITION. What may be written: which operation fits which channel, which pairs make a cycle, and the trace notation of
30_encoding.md R71 with the ranges of its numbers. An `Instr` by itself has no ill-formed term: its operands have the widths of
the ports, and every value a port can carry is legal (R69). -/

namespace Sys2Proof

/-- The operation can be an operation of this channel; RST fits both (R65, R66). -/
def Instr.fits (i : Instr) (ch : Channel) : Bool :=
  match i with
  | .rst => true
  | .lde _ _ => ch == .encoder
  | .enc _ => ch == .encoder
  | .enop => ch == .encoder
  | .ldd _ _ => ch == .decoder
  | .dec _ => ch == .decoder
  | .dnop => ch == .decoder

/-- One cycle: the encoder channel's operation and the decoder channel's. -/
structure Line where
  e : Instr
  d : Instr
  deriving DecidableEq, Repr

/-- Check 1: the encoder's side holds an operation of the encoder channel. -/
def Line.encoderSide (l : Line) : Bool := l.e.fits .encoder
/-- Check 2: the decoder's side holds an operation of the decoder channel. -/
def Line.decoderSide (l : Line) : Bool := l.d.fits .decoder
/-- Check 3: `rst` is one signal, so one side is RST exactly when the other is (R66). -/
def Line.oneReset (l : Line) : Bool := (l.e == .rst) == (l.d == .rst)

/-- A pair of operations that one edge can carry. -/
def Line.wf (l : Line) : Bool := l.encoderSide && l.decoderSide && l.oneReset

/-- A number of the trace notation (R71): decimal, or hexadecimal, which stands for the raw bit pattern of the field. -/
inductive Literal where
  | decimal (v : Int)
  | hex (v : Nat)
  deriving DecidableEq, Repr

/-- `sample` and `pred` of R71: an integer in [-32768, 32767], or a 16-bit pattern. -/
def Literal.isSample : Literal → Bool
  | .decimal v => -32768 ≤ v && v ≤ 32767
  | .hex v => v < 2 ^ 16

/-- `index` of R71: an integer in [0, 127], or a 7-bit pattern. -/
def Literal.isIndex : Literal → Bool
  | .decimal v => 0 ≤ v && v ≤ 127
  | .hex v => v < 2 ^ 7

/-- `code` of R71: an integer in [0, 15], or a 4-bit pattern. A wider value is refused, never masked (93, U1; C1; D8). -/
def Literal.isCode : Literal → Bool
  | .decimal v => 0 ≤ v && v ≤ 15
  | .hex v => v < 2 ^ 4

/-- `enc_op` of R71, or the bundle written raw (`ECMD=0x...`). -/
inductive EncOp where
  | enc (sample : Literal)
  | lde (pred index : Literal)
  | enop
  | raw (ecmd : Nat)
  deriving DecidableEq, Repr

/-- `dec_op` of R71, or the bundle written raw (`DCMD=0x...`). -/
inductive DecOp where
  | dec (code : Literal)
  | ldd (pred index : Literal)
  | dnop
  | raw (dcmd : Nat)
  deriving DecidableEq, Repr

/-- `line` of R71. -/
inductive TraceLine where
  | rst
  | encOnly (e : EncOp)
  | decOnly (d : DecOp)
  | both (e : EncOp) (d : DecOp)
  deriving DecidableEq, Repr

/-- The operands of a written encoder operation are in range. -/
def EncOp.wf : EncOp → Bool
  | .enc s => s.isSample
  | .lde p i => p.isSample && i.isIndex
  | .enop => true
  | .raw w => w < 2 ^ 42

/-- The operands of a written decoder operation are in range. -/
def DecOp.wf : DecOp → Bool
  | .dec c => c.isCode
  | .ldd p i => p.isSample && i.isIndex
  | .dnop => true
  | .raw w => w < 2 ^ 42

/-- The `rst` bit a written encoder operation asks for; only a raw bundle can set it. -/
def EncOp.rstBit : EncOp → Bool
  | .raw w => w.testBit 41
  | _ => false

/-- The `rst` bit a written decoder operation asks for. -/
def DecOp.rstBit : DecOp → Bool
  | .raw w => w.testBit 41
  | _ => false

/-- A written line is well-formed: its operands are in range, and two sides written out agree on `rst`, one signal (R66). -/
def TraceLine.wf : TraceLine → Bool
  | .rst => true
  | .encOnly e => e.wf
  | .decOnly d => d.wf
  | .both e d => e.wf && d.wf && (e.rstBit == d.rstBit)

end Sys2Proof
end

