-- ==== Sys2Proof/Decode.lean ====
section
/-! DEFINITION. The command bundles, the decoding of each into an operation, the encoding back, and the opcode table
(spec/30_encoding.md, spec/opcode_table.json). Every one of the 2^42 values of a bundle decodes (R65, R69). -/

namespace Sys2Proof

/-- The fields of a bundle, from bit 41 down: r, l, v, then i (38:32), p (31:16) and the low sixteen bits (R63, R64). -/
def pack (r l v : Bool) (i : StepIndex) (p : Sample) (low : BitVec 16) : Bundle :=
  BitVec.ofBool r ++ BitVec.ofBool l ++ BitVec.ofBool v ++ i ++ p ++ low

/-- ECMD[41:0] (R63): the low sixteen bits are the sample. -/
def Inputs.ecmd (p : Inputs) : Bundle :=
  pack p.rst p.encLoad p.encInValid p.encLoadIndex p.encLoadPred p.encInSample

/-- DCMD[41:0] (R64): the low sixteen bits are twelve with no wire, which read as 0, and the code. -/
def Inputs.dcmd (p : Inputs) : Bundle :=
  pack p.rst p.decLoad p.decInValid p.decLoadIndex p.decLoadPred (0#12 ++ p.decInCode)

/-- Bit 41 of a bundle: `rst`. -/
def Bundle.r (w : Bundle) : Bool := w.getLsbD 41
/-- Bit 40 of a bundle: the load request. -/
def Bundle.l (w : Bundle) : Bool := w.getLsbD 40
/-- Bit 39 of a bundle: the encode or decode request. -/
def Bundle.v (w : Bundle) : Bool := w.getLsbD 39
/-- Bits 38:32 of a bundle: the index to load (R67). -/
def Bundle.i (w : Bundle) : StepIndex := w.extractLsb' 32 7
/-- Bits 31:16 of a bundle: the prediction to load (R67). -/
def Bundle.p (w : Bundle) : Sample := w.extractLsb' 16 16
/-- Bits 15:0 of ECMD: the sample (R67). -/
def Bundle.s (w : Bundle) : Sample := w.extractLsb' 0 16
/-- Bits 3:0 of DCMD: the code (R67). -/
def Bundle.c (w : Bundle) : Code := w.extractLsb' 0 4

/-- The encoder channel's operation, by priority (R65). -/
def decodeEcmd (w : Bundle) : Instr :=
  if Bundle.r w then .rst
  else if Bundle.l w then .lde (Bundle.p w) (Bundle.i w)
  else if Bundle.v w then .enc (Bundle.s w)
  else .enop

/-- The decoder channel's operation, by priority (R66). -/
def decodeDcmd (w : Bundle) : Instr :=
  if Bundle.r w then .rst
  else if Bundle.l w then .ldd (Bundle.p w) (Bundle.i w)
  else if Bundle.v w then .dec (Bundle.c w)
  else .dnop

/-- The operation a channel decodes from its bundle. -/
def decodeOn (ch : Channel) (w : Bundle) : Instr :=
  match ch with
  | .encoder => decodeEcmd w
  | .decoder => decodeDcmd w

/-- The two operations of one cycle. -/
def decodeLine (p : Inputs) : Line := ⟨decodeEcmd p.ecmd, decodeDcmd p.dcmd⟩

/-- The port values that two bundles spell. `rst` is one signal: it is 1 where either bundle has it. -/
def Inputs.ofBundles (e d : Bundle) : Inputs where
  rst := Bundle.r e || Bundle.r d
  encInValid := Bundle.v e
  encInSample := Bundle.s e
  encLoad := Bundle.l e
  encLoadPred := Bundle.p e
  encLoadIndex := Bundle.i e
  decInValid := Bundle.v d
  decInCode := Bundle.c d
  decLoad := Bundle.l d
  decLoadPred := Bundle.p d
  decLoadIndex := Bundle.i d

/-- The bundle a line of the trace notation spells for an operation: unused fields are 0 (R71). -/
def encode (i : Instr) : Bundle :=
  match i with
  | .rst => pack true false false 0 0 0
  | .lde p i => pack false true false i p 0
  | .enc s => pack false false true 0 0 s
  | .enop => pack false false false 0 0 0
  | .ldd p i => pack false true false i p 0
  | .dec c => pack false false true 0 0 (0#12 ++ c)
  | .dnop => pack false false false 0 0 0

/-- The port values that a pair of operations spells. -/
def encodeLine (l : Line) : Inputs := Inputs.ofBundles (encode l.e) (encode l.d)

/-- One row of spec/opcode_table.json: its bundle belongs to it exactly when `bundle &&& mask = pattern`. -/
structure Row where
  mnemonic : String
  channel : Option Channel
  mask : Bundle
  pattern : Bundle
  deriving DecidableEq, Repr

/-- The opcode table, in its own order; RST's row is in both bundles. -/
def opcodeTable : List Row :=
  [⟨"RST", none, 0x20000000000, 0x20000000000⟩,
   ⟨"LDE", some .encoder, 0x30000000000, 0x10000000000⟩,
   ⟨"ENC", some .encoder, 0x38000000000, 0x08000000000⟩,
   ⟨"ENOP", some .encoder, 0x38000000000, 0x00000000000⟩,
   ⟨"LDD", some .decoder, 0x30000000000, 0x10000000000⟩,
   ⟨"DEC", some .decoder, 0x38000000000, 0x08000000000⟩,
   ⟨"DNOP", some .decoder, 0x38000000000, 0x00000000000⟩]

/-- The row of an operation: its mnemonic in the table. -/
def Instr.mnemonic (i : Instr) : String :=
  match i with
  | .rst => "RST"
  | .lde _ _ => "LDE"
  | .enc _ => "ENC"
  | .enop => "ENOP"
  | .ldd _ _ => "LDD"
  | .dec _ => "DEC"
  | .dnop => "DNOP"

/-- The bundle lies in the row. -/
def Row.holds (r : Row) (w : Bundle) : Bool := w &&& r.mask == r.pattern

/-- The row is one of the channel's bundle. -/
def Row.onChannel (r : Row) (ch : Channel) : Bool :=
  match r.channel with
  | none => true
  | some c => c == ch

/-- What the decoder reads from a word numbered as the opcode table numbers it. The table gives ECMD rows and DCMD rows the same
masks and patterns, and which of the two a word is is not in the word; it is read as ECMD (log entry 7). A word of more than 42
bits is no bundle and is refused, never cut. `nbits` is not needed: a bundle has one width (R70). -/
def decodeTableWord (_nbits w : Nat) : Option Instr :=
  if w < 2 ^ 42 then some (decodeEcmd (BitVec.ofNat 42 w)) else none

end Sys2Proof
end

