-- ==== Sys2Proof/Config.lean ====
section
/-! DEFINITION. The free values of the model: what the spec does not fix. None has a body, so nothing in Lean can say what one is.
(The tables STEP_TABLE and INDEX_TABLE, which the spec does fix by default, stand in Machine/Tables.lean.) -/

namespace Sys2Proof

/-- FREE VALUE (log entry 1). What the environment drives on the input ports at edge number `n`, where the model
lists nothing for that edge. The spec leaves the choice of operations to the environment (10_state.md R25). Safe. -/
opaque Config.pins (n : Nat) : Inputs

/-- FREE VALUE (log entry 5). What a read of `step_rom` past its last entry would give. The spec has no such entry and says
that no read goes there (20_memory.md R48). Safe. -/
opaque Config.stepRomBeyond (i : StepIndex) : Nat

/-- FREE VALUE (log entry 5). What a read of `index_rom` would give where its table had no entry. A table the spec allows has one for
every code (R46, R48). Safe. -/
opaque Config.indexRomBeyond (c : Code) : Int

/-- FREE VALUE (log entry 4). `E.pred` at power-up (70_reset_and_hazards.md R161). Safe, as the seven below. -/
opaque Config.powerUpEncPred : Sample
/-- FREE VALUE (log entry 4). `E.idx` at power-up (R161). -/
opaque Config.powerUpEncIdx : StepIndex
/-- FREE VALUE (log entry 4). `E.out_code` at power-up (R161). -/
opaque Config.powerUpEncOutCode : Code
/-- FREE VALUE (log entry 4). `E.out_valid` at power-up (R161). -/
opaque Config.powerUpEncOutValid : Bool
/-- FREE VALUE (log entry 4). `D.pred` at power-up (R161). -/
opaque Config.powerUpDecPred : Sample
/-- FREE VALUE (log entry 4). `D.idx` at power-up (R161). -/
opaque Config.powerUpDecIdx : StepIndex
/-- FREE VALUE (log entry 4). `D.out_sample` at power-up (R161). -/
opaque Config.powerUpDecOutSample : Sample
/-- FREE VALUE (log entry 4). `D.out_valid` at power-up (R161). -/
opaque Config.powerUpDecOutValid : Bool

end Sys2Proof
end

