-- ==== Sys2Proof/Machine/State.lean ====
section
/-! DEFINITION. The state of adpcm_core (spec/10_state.md), the reasons a step can stop, the state after reset and the state at
power-up. -/

namespace Sys2Proof.Machine

/-- `state_register`: one design, one copy per channel (R20, R21, R22; 90_conflicts.md C2); the pair is the channel's CodecState (R23). -/
structure StateRegister where
  /-- `predicted_sample` (R21). -/
  pred : Sample
  /-- `step_index`; 89 to 127 are never held (R22). -/
  idx : StepIndex
  deriving DecidableEq, Repr

/-- The encoder channel E. -/
structure EncChannel where
  reg : StateRegister
  /-- E has had an RST or an LDE since power-up (60_exceptions.md R145). -/
  initialised : Bool
  /-- `E.out_code` (R24). -/
  outCode : Code
  /-- `E.out_valid` (R24, R26). -/
  outValid : Bool
  deriving DecidableEq, Repr

/-- The decoder channel D. -/
structure DecChannel where
  reg : StateRegister
  /-- D has had an RST or an LDD since power-up (R145). -/
  initialised : Bool
  /-- `D.out_sample` (R24). -/
  outSample : Sample
  /-- `D.out_valid` (R24, R26). -/
  outValid : Bool
  deriving DecidableEq, Repr

/-- The whole state. `inputs` and `edges` are the model's own fields, not the block's: what the environment will drive on the input
ports at the coming edges, soonest first, and how many edges there have been (log entries 1 and 2). -/
structure State where
  enc : EncChannel
  dec : DecChannel
  inputs : List Inputs
  edges : Nat
  deriving DecidableEq, Repr

/-- Why a step ends in a fault. Both are the spec's own model-level faults and are permanent (60_exceptions.md R145). -/
inductive Fault where
  /-- ModelFault(Uninitialised_E): raised by ENC on an encoder channel that has had neither RST nor LDE since power-up (R100). Safe:
  the hardware does something there and the spec does not say what. -/
  | uninitialisedE
  /-- ModelFault(Uninitialised_D): raised by DEC on a decoder channel that has had neither RST nor LDD since power-up (R110). Safe. -/
  | uninitialisedD
  deriving DecidableEq, Repr

/-- Why a step is refused. -/
inductive Refusal where
  /-- An operation with no meaning in the model. No operation raises it: every row of the opcode table is modelled. Safe. -/
  | notModelled (mnemonic : String)
  deriving DecidableEq, Repr

/-- Stream start: `{predicted_sample: 0, step_index: 0}` (00_scope.md R11; 70_reset_and_hazards.md R160). -/
def StateRegister.streamStart : StateRegister := ⟨0, 0⟩

/-- E after a rising edge with `rst = 1` (R120, R160). -/
def EncChannel.afterReset : EncChannel := ⟨.streamStart, true, 0, false⟩

/-- D after a rising edge with `rst = 1` (R120, R160). -/
def DecChannel.afterReset : DecChannel := ⟨.streamStart, true, 0, false⟩

/-- The machine right after reset: every register as R160 gives it, and nothing listed on the ports. -/
def State.reset : State := ⟨.afterReset, .afterReset, [], 0⟩

/-- The machine at power-up (R161): no register holds a known value, and neither channel is initialised. -/
def State.powerUp : State where
  enc := ⟨⟨Config.powerUpEncPred, Config.powerUpEncIdx⟩, false, Config.powerUpEncOutCode, Config.powerUpEncOutValid⟩
  dec := ⟨⟨Config.powerUpDecPred, Config.powerUpDecIdx⟩, false, Config.powerUpDecOutSample, Config.powerUpDecOutValid⟩
  inputs := []
  edges := 0

end Sys2Proof.Machine
end

