-- ==== Sys2Proof/Machine/Operands.lean ====
section
/-! DEFINITION. How operands are read as numbers and numbers are narrowed back: spec/00_scope.md R7, R8; spec/30_encoding.md R67. -/

namespace Sys2Proof.Machine

/-- `sext_16`: the value of a sample or prediction word (R60, R67). -/
def sampleValue (w : Sample) : Int := w.toInt

/-- `zext_7`: the value of an index word (R67). -/
def indexValue (i : StepIndex) : Nat := i.toNat

/-- `clamp(v, lo, hi)` (R8): the only narrowing of the datapath. -/
def clamp (v lo hi : Int) : Int :=
  if v < lo then lo else if v > hi then hi else v

/-- A value clamped to the sample range, as a 16-bit word (R86). -/
def clampSample (v : Int) : Sample := BitVec.ofInt 16 (clamp v (-32768) 32767)

/-- A value clamped to the legal indices, as a 7-bit word (R87). -/
def clampIndex (v : Int) : StepIndex := BitVec.ofInt 7 (clamp v 0 88)

/-- `min(i, 88)`: what a load writes for the index `i` (43_state_control.md R121, R122). -/
def saturateIndex (i : StepIndex) : StepIndex := BitVec.ofNat 7 (min (indexValue i) 88)

end Sys2Proof.Machine
end

