-- ==== Sys2Proof/Machine/Tables.lean ====
section
/-! DEFINITION. `step_rom` and `index_rom` (spec/20_memory.md R41 to R49): constants, fixed when the block is built. -/

namespace Sys2Proof.Machine

/-- The parameters STEP_TABLE and INDEX_TABLE of a build (00_scope.md R6). The datapath functions take them as an argument, so that
what holds for every table the spec allows can be said so. -/
structure Rom where
  step : List Nat
  index : List Int
  deriving DecidableEq, Repr

/-- STEP_TABLE, the default of R42, in the rows of ten it is printed in. PRESUMED (log entry 3). -/
def stepTable : List Nat :=
  [7, 8, 9, 10, 11, 12, 13, 14, 16, 17] ++
  [19, 21, 23, 25, 28, 31, 34, 37, 41, 45] ++
  [50, 55, 60, 66, 73, 80, 88, 97, 107, 118] ++
  [130, 143, 157, 173, 190, 209, 230, 253, 279, 307] ++
  [337, 371, 408, 449, 494, 544, 598, 658, 724, 796] ++
  [876, 963, 1060, 1166, 1282, 1411, 1552, 1707, 1878, 2066] ++
  [2272, 2499, 2749, 3024, 3327, 3660, 4026, 4428, 4871, 5358] ++
  [5894, 6484, 7132, 7845, 8630, 9493, 10442, 11487, 12635, 13899] ++
  [15289, 16818, 18500, 20350, 22385, 24623, 27086, 29794, 32767]

/-- INDEX_TABLE, the default of R45. PRESUMED (log entry 3). -/
def indexTable : List Int :=
  [-1, -1, -1, -1, 2, 4, 6, 8] ++
  [-1, -1, -1, -1, 2, 4, 6, 8]

/-- The tables of this build. Both channels read the same two (R49). -/
def rom : Rom := ⟨stepTable, indexTable⟩

/-- The constraints on STEP_TABLE (R43): 89 entries, positive, strictly increasing, and the two entries the source fixes. -/
def Rom.stepWf (t : Rom) : Bool :=
  t.step.length == 89 && t.step.all (0 < ·) && (t.step.zip t.step.tail).all (fun p => p.1 < p.2) &&
    t.step[0]? == some 7 && t.step[8]? == some 16

/-- The constraints on INDEX_TABLE (R46): 16 entries, the two the source fixes, and both signs occur. -/
def Rom.indexWf (t : Rom) : Bool :=
  t.index.length == 16 && t.index[7]? == some 8 && t.index[15]? == some 8 && t.index.any (0 < ·) && t.index.any (· < 0)

/-- A table pair the spec allows. -/
def Rom.wf (t : Rom) : Bool := t.stepWf && t.indexWf

/-- `StepRom[i]` (R41, R48). Past the last entry the spec has nothing, and the read is a free value (log entry 5); no initialised
channel holds such an index (R22). -/
def Rom.stepAt (t : Rom) (i : StepIndex) : Nat :=
  match t.step[i.toNat]? with
  | some v => v
  | none => Config.stepRomBeyond i

/-- `IndexRom[c]` (R44, R48). A table the spec allows has an entry for each of the 16 codes; without one the read would be a free value
(log entry 5). -/
def Rom.indexAt (t : Rom) (c : Code) : Int :=
  match t.index[c.toNat]? with
  | some v => v
  | none => Config.indexRomBeyond c

end Sys2Proof.Machine
end

