-- ==== Sys2Proof/Machine/Datapath.lean ====
section
/-! DEFINITION. The combinational functions of spec/40_datapath.md, in its order: the quantizer, the dequantizer, the predictor update
and the index update. Arithmetic is on unbounded integers (00_scope.md R8); each function takes the tables it reads. -/

namespace Sys2Proof.Machine

/-- R81: `Diff(sample, pred)`. -/
def diff (sample pred : Sample) : Int := sampleValue sample - sampleValue pred

/-- R82: the sign of a difference; 0 counts as not negative. -/
def sign (d : Int) : Bool := d < 0

/-- R82: the magnitude of a difference. -/
def mag (d : Int) : Nat := d.natAbs

/-- The three magnitude bits of a code (R61). -/
structure Magnitude where
  b2 : Bool
  b1 : Bool
  b0 : Bool
  deriving DecidableEq, Repr

/-- One comparison of the quantizer (R83): whether the remainder reaches the threshold. -/
def reaches (r threshold : Nat) : Bool := r ≥ threshold

/-- One comparison of the quantizer (R83): the remainder it leaves. -/
def remainder (r threshold : Nat) : Nat := if reaches r threshold then r - threshold else r

/-- R83: `Quantize(mag, step)`. -/
def quantize (mag step : Nat) : Magnitude :=
  let r₁ := remainder mag step
  let r₂ := remainder r₁ (step >>> 1)
  ⟨reaches mag step, reaches r₁ (step >>> 1), reaches r₂ (step >>> 2)⟩

/-- `8*sign + 4*b2 + 2*b1 + b0`, with the source's mask (R84). -/
def assemble (sg : Bool) (m : Magnitude) : Code :=
  BitVec.ofNat 4 ((8 * sg.toNat + 4 * m.b2.toNat + 2 * m.b1.toNat + m.b0.toNat) &&& 0x0F)

/-- R84: `EncodeCode(sample, pred, idx)`. -/
def encodeCode (t : Rom) (sample : Sample) (r : StateRegister) : Code :=
  let step := t.stepAt r.idx
  let d := diff sample r.pred
  assemble (sign d) (quantize (mag d) step)

/-- What one magnitude bit of a code adds to `diffq` (R85). -/
def contribution (bit : Bool) (v : Nat) : Nat := if bit then v else 0

/-- R85: `Dequantize(code, step)`. -/
def dequantize (code : Code) (step : Nat) : Nat :=
  (step >>> 3) + contribution (code.getLsbD 2) step + contribution (code.getLsbD 1) (step >>> 1) +
    contribution (code.getLsbD 0) (step >>> 2)

/-- R86: the prediction before the clamp. -/
def predictorSum (pred : Sample) (code : Code) (diffq : Nat) : Int :=
  if code.getLsbD 3 then sampleValue pred - diffq else sampleValue pred + diffq

/-- R86: `PredictorUpdate(pred, code, diffq)`. -/
def predictorUpdate (pred : Sample) (code : Code) (diffq : Nat) : Sample :=
  clampSample (predictorSum pred code diffq)

/-- R87: `IndexUpdate(idx, code)`. -/
def indexUpdate (t : Rom) (idx : StepIndex) (code : Code) : StepIndex :=
  clampIndex (indexValue idx + t.indexAt code)

/-- R88: `Update(code, pred, idx)`, the one state update of the block, used by both channels (R89). -/
def update (t : Rom) (code : Code) (r : StateRegister) : StateRegister where
  pred := predictorUpdate r.pred code (dequantize code (t.stepAt r.idx))
  idx := indexUpdate t r.idx code

end Sys2Proof.Machine
end

