-- ==== Sys2Proof/Machine/Flags.lean ====
section
/-! DEFINITION. The only status bits of the block: `E.out_valid` and `D.out_valid` (spec/10_state.md R24, R26). Every operation of a
channel writes its channel's bit; nothing inside the block reads one. There are no other flags. -/

namespace Sys2Proof.Machine

/-- Write `E.out_valid` (R24): 1 after ENC, 0 after anything else. -/
def EncChannel.setValid (c : EncChannel) (v : Bool) : EncChannel := { c with outValid := v }

/-- Write `D.out_valid` (R24): 1 after DEC, 0 after anything else. -/
def DecChannel.setValid (c : DecChannel) (v : Bool) : DecChannel := { c with outValid := v }

end Sys2Proof.Machine
end

