-- ==== Sys2Proof/Machine/Ops.lean ====
section
/-! DEFINITION. The named operations over the state that the meanings share: the register writes of each kind of operation, the
model-level fault, the output ports, and the input ports of the next edge. -/

namespace Sys2Proof.Machine

/-- What a step answers. -/
abbrev Answer := Host.Outcome State Fault Refusal

/-- Write the encoder channel; everything else holds. -/
def State.setEnc (s : State) (c : EncChannel) : State := { s with enc := c }

/-- Write the decoder channel; everything else holds. -/
def State.setDec (s : State) (c : DecChannel) : State := { s with dec := c }

/-- The writes of an ENC (R100): the new state, the code and the valid bit. -/
def EncChannel.emit (c : EncChannel) (r : StateRegister) (code : Code) : EncChannel :=
  { c with reg := r, outCode := code }.setValid true

/-- The writes of a DEC (R110): the new state, the reconstructed sample and the valid bit. -/
def DecChannel.emit (c : DecChannel) (r : StateRegister) (sample : Sample) : DecChannel :=
  { c with reg := r, outSample := sample }.setValid true

/-- The register contents a load writes: the prediction as it is and the index saturated at 88 (R121, R122). -/
def StateRegister.loaded (p : Sample) (i : StepIndex) : StateRegister := ⟨p, saturateIndex i⟩

/-- The writes of an LDE (R121); `E.out_code` holds. -/
def EncChannel.load (c : EncChannel) (r : StateRegister) : EncChannel :=
  { c with reg := r, initialised := true }.setValid false

/-- The writes of an LDD (R122); `D.out_sample` holds. -/
def DecChannel.load (c : DecChannel) (r : StateRegister) : DecChannel :=
  { c with reg := r, initialised := true }.setValid false

/-- `raise ModelFault(f)` unless the channel is initialised, and otherwise the state `t` (60_exceptions.md R145). -/
def ifInitialised (initialised : Bool) (f : Fault) (t : State) : Answer :=
  if initialised then .next t else .fault f

/-- The output ports: each shows its register, at all times and with no side effect (R28, R29). -/
def State.outputs (s : State) : Outputs where
  encOutCode := s.enc.outCode
  encOutValid := s.enc.outValid
  encStatePred := s.enc.reg.pred
  encStateIndex := s.enc.reg.idx
  decOutSample := s.dec.outSample
  decOutValid := s.dec.outValid
  decStatePred := s.dec.reg.pred
  decStateIndex := s.dec.reg.idx

/-- The values on the input ports at the next edge: the first listed, or a free value where none is listed (log entry 1). -/
def State.pins (s : State) : Inputs :=
  match s.inputs with
  | p :: _ => p
  | [] => Config.pins s.edges

/-- The edge has been taken: its input values are used up. Changes the model's own two fields only. -/
def State.advance (s : State) : State := { s with inputs := s.inputs.tail, edges := s.edges + 1 }

/-- The environment will drive `p` at the next edge, in place of what was listed for that edge. -/
def State.drive (s : State) (p : Inputs) : State := { s with inputs := p :: s.inputs.tail }

/-- Two operations at one edge: the second runs where the first answers a next state. -/
def andThen (o : Answer) (k : State → Answer) : Answer :=
  match o with
  | .next t => k t
  | .fault f => .fault f
  | .refused r => .refused r

end Sys2Proof.Machine
end

