-- ==== Sys2Proof/Machine/Control.lean ====
section
/-! DEFINITION. Reset of the whole block (spec/43_state_control.md R120). -/

namespace Sys2Proof.Machine

/-- RST (R120): both channels to stream start, every output register 0, both channels initialised. -/
def execRst (s : State) : Answer := .next ((s.setEnc .afterReset).setDec .afterReset)

end Sys2Proof.Machine
end

