-- ==== Sys2Proof/Machine/Decoder.lean ====
section
/-! DEFINITION. The operations of the decoder channel (spec/42_decode.md; LDD is in spec/43_state_control.md). -/

namespace Sys2Proof.Machine

/-- DEC c (R110): every code is processed (R113, R114). -/
def execDec (code : Code) (s : State) : Answer :=
  let r := update rom code s.dec.reg
  ifInitialised s.dec.initialised .uninitialisedD (s.setDec (s.dec.emit r r.pred))

/-- DNOP (R111): only `D.out_valid` is written. -/
def execDnop (s : State) : Answer := .next (s.setDec (s.dec.setValid false))

/-- LDD p, i (R122). -/
def execLdd (p : Sample) (i : StepIndex) (s : State) : Answer := .next (s.setDec (s.dec.load (.loaded p i)))

end Sys2Proof.Machine
end

