-- ==== Sys2Proof/Machine/Encoder.lean ====
section
/-! DEFINITION. The operations of the encoder channel (spec/41_encode.md; LDE is in spec/43_state_control.md). -/

namespace Sys2Proof.Machine

/-- ENC s (R100). -/
def execEnc (sample : Sample) (s : State) : Answer :=
  let r := s.enc.reg
  let code := encodeCode rom sample r
  ifInitialised s.enc.initialised .uninitialisedE (s.setEnc (s.enc.emit (update rom code r) code))

/-- ENOP (R101): only `E.out_valid` is written. -/
def execEnop (s : State) : Answer := .next (s.setEnc (s.enc.setValid false))

/-- LDE p, i (R121). -/
def execLde (p : Sample) (i : StepIndex) (s : State) : Answer := .next (s.setEnc (s.enc.load (.loaded p i)))

end Sys2Proof.Machine
end

