-- ==== Sys2Proof/Machine/Dispatch.lean ====
section
/-! DEFINITION. One arm per operation. -/

namespace Sys2Proof.Machine

def exec (i : Instr) (s : State) : Host.Outcome State Fault Refusal :=
  match i with
  | .rst => Sys2Proof.Machine.execRst s
  | .lde p n => Sys2Proof.Machine.execLde p n s
  | .enc x => Sys2Proof.Machine.execEnc x s
  | .enop => Sys2Proof.Machine.execEnop s
  | .ldd p n => Sys2Proof.Machine.execLdd p n s
  | .dec c => Sys2Proof.Machine.execDec c s
  | .dnop => Sys2Proof.Machine.execDnop s

end Sys2Proof.Machine
end

