-- ==== Sys2Proof/Machine/Cycle.lean ====
section
/-! DEFINITION. One rising edge of `clk`: both channels' operations (spec/60_exceptions.md R144, spec/20_memory.md R54, R55), and how an
instruction word is put where the next step takes it. -/

namespace Sys2Proof.Machine

/-- The operations of one edge. RST is one operation of the whole block and runs once (R66). Otherwise both channels' operations are
performed; they share no state, so the order in which they stand here shows only in which fault is reported where both channels
fault (log entry 6). -/
def runLine (l : Line) (s : State) : Answer :=
  match l.e with
  | .rst => exec .rst s
  | _ => andThen (exec l.e s) (exec l.d)

/-- One rising edge: sample the input ports, decode, perform (R28, R65, R66). -/
def cycle (s : State) : Answer := runLine (decodeLine s.pins) s.advance

/-- The port values of a cycle in which a word of the opcode table, read as ECMD, is presented and the decoder channel's ports are
all 0 (R71: a line with only an encoder operation has DNOP on the decoder channel; log entry 7). -/
def tableWordInputs (w : Nat) : Inputs := Inputs.ofBundles (BitVec.ofNat 42 w) 0

/-- The state with that word on the ports at the next edge. A word of more than 42 bits is no bundle and changes nothing. -/
def driveTableWord (s : State) (w : Nat) : State :=
  if w < 2 ^ 42 then s.drive (tableWordInputs w) else s

end Sys2Proof.Machine
end

