-- ==== Sys2Proof/Machine/Step.lean ====
section
/-! DEFINITION. One step is one rising edge of `clk` (spec/20_memory.md R54; spec/70_reset_and_hazards.md R170). -/

namespace Sys2Proof.Machine

/-- One rising edge. -/
def step (s : State) : Host.Outcome State Fault Refusal := cycle s

/-- `s` with the opcode-table word `w` on the input ports at the next edge. -/
def State.withFetchWord (s : State) (_nbits w : Nat) : State := driveTableWord s w

end Sys2Proof.Machine
end

