-- ==== Sys2Proof/Machine/Streams.lean ====
section
/-! DEFINITION. The source's folds, `encode_stream` and `decode_stream`, as functions of a starting state (spec/30_encoding.md R72,
spec/41_encode.md R102, spec/42_decode.md R112). They use no machine state: claims compare the machine with them. -/

namespace Sys2Proof.Machine

/-- `encode_sample`: one sample to one code and the new state. -/
def encodeSample (x : Sample) (r : StateRegister) : Code × StateRegister :=
  (encodeCode rom x r, update rom (encodeCode rom x r) r)

/-- `decode_code`: one code to one sample and the new state. -/
def decodeCode (c : Code) (r : StateRegister) : Sample × StateRegister :=
  ((update rom c r).pred, update rom c r)

/-- `encode_stream` from a state: the codes, one per sample, in order. -/
def encodeStream (r : StateRegister) : List Sample → List Code
  | [] => []
  | x :: xs => (encodeSample x r).1 :: encodeStream (encodeSample x r).2 xs

/-- The state after each sample of an `encode_stream`. -/
def encodeStates (r : StateRegister) : List Sample → List StateRegister
  | [] => []
  | x :: xs => (encodeSample x r).2 :: encodeStates (encodeSample x r).2 xs

/-- `decode_stream` from a state: the samples, one per code, in order. -/
def decodeStream (r : StateRegister) : List Code → List Sample
  | [] => []
  | c :: cs => (decodeCode c r).1 :: decodeStream (decodeCode c r).2 cs

/-- The state after each code of a `decode_stream`. -/
def decodeStates (r : StateRegister) : List Code → List StateRegister
  | [] => []
  | c :: cs => (decodeCode c r).2 :: decodeStates (decodeCode c r).2 cs

/-- The last state of a fold that passed through `states` from `r`. -/
def finalState (r : StateRegister) (states : List StateRegister) : StateRegister := states.getLastD r

end Sys2Proof.Machine
end

