-- ==== Sys2Proof/Machine/Trace.lean ====
section
/-! DEFINITION. The trace notation of spec/30_encoding.md R71 as port values, and the pseudo-operations of R72 as lists of them. -/

namespace Sys2Proof.Machine

/-- The bit pattern of a written number in a field of `n` bits: a negative decimal is its two's complement, a hexadecimal is raw (R71). -/
def literalBits (n : Nat) : Literal → BitVec n
  | .decimal v => BitVec.ofInt n v
  | .hex v => BitVec.ofNat n v

/-- The ECMD a written encoder operation spells; unused fields are 0 (R71). -/
def encOpBundle : EncOp → Bundle
  | .enc s => encode (.enc (literalBits 16 s))
  | .lde p i => encode (.lde (literalBits 16 p) (literalBits 7 i))
  | .enop => encode .enop
  | .raw w => BitVec.ofNat 42 w

/-- The DCMD a written decoder operation spells; unused fields are 0 (R71). -/
def decOpBundle : DecOp → Bundle
  | .dec c => encode (.dec (literalBits 4 c))
  | .ldd p i => encode (.ldd (literalBits 16 p) (literalBits 7 i))
  | .dnop => encode .dnop
  | .raw w => BitVec.ofNat 42 w

/-- The two bundles a line spells: a side not written is ENOP or DNOP (R71). -/
def traceBundles : TraceLine → Bundle × Bundle
  | .rst => (encode .rst, encode .rst)
  | .encOnly e => (encOpBundle e, encode .dnop)
  | .decOnly d => (encode .enop, decOpBundle d)
  | .both e d => (encOpBundle e, decOpBundle d)

/-- The port values a line spells, or none where the line is ill-formed: a number out of range is refused, never masked (93, U1). -/
def traceInputs (l : TraceLine) : Option Inputs :=
  if l.wf then some (Inputs.ofBundles (traceBundles l).1 (traceBundles l).2) else none

/-- ENCSTREAM s0, ..., s(n-1) (R72): `LDE 0, 0`, then one ENC a cycle; the decoder channel has DNOP. -/
def encStream (xs : List Sample) : List Inputs :=
  encodeLine ⟨.lde 0 0, .dnop⟩ :: xs.map (fun x => encodeLine ⟨.enc x, .dnop⟩)

/-- DECSTREAM c0, ..., c(n-1) (R72): `LDD 0, 0`, then one DEC a cycle; the encoder channel has ENOP. -/
def decStream (cs : List Code) : List Inputs :=
  encodeLine ⟨.enop, .ldd 0 0⟩ :: cs.map (fun c => encodeLine ⟨.enop, .dec c⟩)

end Sys2Proof.Machine
end

