-- ==== Sys2Proof/Safety.lean ====
section
/-! DEFINITION. What counts as a good state, in the terms the claims use. A safe run is one that ends in `.next`: no fault and no refusal. -/

namespace Sys2Proof.Machine

/-- A legal index (10_state.md R22). -/
def StateRegister.legal (r : StateRegister) : Bool := r.idx.toNat ≤ 88

/-- The state invariant. An uninitialised channel's registers are unconstrained (70_reset_and_hazards.md R161). -/
structure State.Inv (s : State) : Prop where
  /-- An initialised encoder's index is in [0, 88] (R22). -/
  encIndex : s.enc.initialised = true → s.enc.reg.legal = true
  /-- An initialised decoder's index is in [0, 88] (R22). -/
  decIndex : s.dec.initialised = true → s.dec.reg.legal = true
  /-- An initialised decoder whose valid bit is up shows its own prediction (R29). -/
  decShown : s.dec.initialised = true → s.dec.outValid = true → s.dec.outSample = s.dec.reg.pred

/-- Both channels have been initialised, which is all the environment must see to (70_reset_and_hazards.md R163). -/
structure State.Ready (s : State) : Prop where
  enc : s.enc.initialised = true
  dec : s.dec.initialised = true

/-- A number of the trace notation spells the word `w` (30_encoding.md R71): a decimal in `[lo, hi]` by the value of the word, and a
hexadecimal that fits the field by its bit pattern. -/
def Spells {n : Nat} (lo hi : Int) (value : BitVec n → Int) (l : Literal) (w : BitVec n) : Prop :=
  match l with
  | .decimal v => (lo ≤ v ∧ v ≤ hi) ∧ value w = v
  | .hex k => k < 2 ^ n ∧ w.toNat = k

/-- A number of the trace notation is out of its range: a decimal outside `[lo, hi]` (R71), or a hexadecimal wider than its field of `n`
bits (log entry 10). -/
def OutOfRange (n : Nat) (lo hi : Int) (l : Literal) : Prop :=
  match l with
  | .decimal v => v < lo ∨ hi < v
  | .hex k => 2 ^ n ≤ k

/-- The number spells a sample, or a prediction to load (R71: [-32768, 32767]). -/
abbrev SpellsSample : Literal → Sample → Prop := Spells (-32768) 32767 BitVec.toInt
/-- The number spells an index to load (R71: [0, 127]). -/
abbrev SpellsIndex : Literal → StepIndex → Prop := Spells 0 127 (fun w => (w.toNat : Int))
/-- The number spells a code (R71: [0, 15]). -/
abbrev SpellsCode : Literal → Code → Prop := Spells 0 15 (fun w => (w.toNat : Int))

end Sys2Proof.Machine
end

