-- ==== Sys2Proof/Certificates/Slice0/Obligations.lean ====
section
/-! DEFINITION. The statements for the provers. Each docstring says which rule of spec/ it formalises. The tables behind `rom` are the
spec's defaults (R42, R45), which the spec takes from general knowledge (log entry 3). -/

open Sys2Proof Sys2Proof.Machine

/-! ### Tables (20_memory.md) -/

/-- R43, R46: the tables of this build meet every constraint the spec puts on STEP_TABLE and INDEX_TABLE. The contents are log entry 3. -/
def Obligations.TablesMeetConstraints : Prop :=
  rom.step.length = 89 ∧ (∀ v ∈ rom.step, 0 < v) ∧
  (∀ i : StepIndex, i.toNat < 88 → rom.stepAt i < rom.stepAt (i + 1)) ∧ rom.stepAt 0 = 7 ∧ rom.stepAt 8 = 16 ∧
  rom.index.length = 16 ∧ rom.indexAt 7 = 8 ∧ rom.indexAt 15 = 8 ∧ (∃ c, 0 < rom.indexAt c) ∧ (∃ c, rom.indexAt c < 0)

/-- R41, R44, R48: a read at a legal index or at any code hits an entry, and the entries lie in the ranges the rules give. -/
def Obligations.TableReadsStayInTable : Prop :=
  (∀ i : StepIndex, i.toNat ≤ 88 → rom.step[i.toNat]? = some (rom.stepAt i) ∧ 7 ≤ rom.stepAt i ∧ rom.stepAt i ≤ 32767) ∧
  (∀ c : Code, rom.index[c.toNat]? = some (rom.indexAt c) ∧ -1 ≤ rom.indexAt c ∧ rom.indexAt c ≤ 8)

/-! ### Datapath (40_datapath.md) -/

/-- R81: the difference is taken on the sign-extended values and lies in [-65535, 65535]. -/
def Obligations.DifferenceIsExact : Prop :=
  ∀ x p : Sample, diff x p = x.toInt - p.toInt ∧ -65535 ≤ diff x p ∧ diff x p ≤ 65535

/-- R82: sign and magnitude of every difference of two samples; 0 gives sign 0 and magnitude 0. -/
def Obligations.SignAndMagnitude : Prop :=
  ∀ x p : Sample,
    (diff x p < 0 → sign (diff x p) = true) ∧ (0 ≤ diff x p → sign (diff x p) = false) ∧
    ((mag (diff x p) : Int) = if diff x p < 0 then -diff x p else diff x p) ∧ mag (diff x p) ≤ 65535 ∧
    (diff x p = 0 → sign (diff x p) = false ∧ mag (diff x p) = 0)

/-- R83: the greedy comparisons. Bit 2 is set where the magnitude reaches `step`, bit 1 where what is left reaches `step >> 1`, bit 0
where what is left then reaches `step >> 2`; each threshold reached is subtracted; `>=` throughout. -/
def Obligations.QuantizeIsGreedy : Prop :=
  ∀ m st r₁ r₂ : Nat, r₁ = (if m ≥ st then m - st else m) → r₂ = (if r₁ ≥ st / 2 then r₁ - st / 2 else r₁) →
    quantize m st = ⟨decide (m ≥ st), decide (r₁ ≥ st / 2), decide (r₂ ≥ st / 4)⟩

/-- R83 with R85: what the three bits stand for, `step`, `step >> 1` and `step >> 2` summed over the set bits, never exceeds the
magnitude that was quantized. -/
def Obligations.QuantizeNeverOvershoots : Prop :=
  ∀ m st : Nat,
    (if (quantize m st).b2 then st else 0) + (if (quantize m st).b1 then st / 2 else 0) +
      (if (quantize m st).b0 then st / 4 else 0) ≤ m

/-- R84: the code of a sample is `8*sign + 4*b2 + 2*b1 + b0`, with the step of the channel's index, the difference from the
channel's prediction, and the quantizer's bits; the mask takes nothing away. For every table. -/
def Obligations.EncodeCodeAssembles : Prop :=
  ∀ (t : Rom) (x : Sample) (r : StateRegister) (m : Magnitude), m = quantize (mag (diff x r.pred)) (t.stepAt r.idx) →
    (encodeCode t x r).toNat = 8 * (sign (diff x r.pred)).toNat + 4 * m.b2.toNat + 2 * m.b1.toNat + m.b0.toNat

/-- R61, R82: bit 3 of the code is set exactly where the sample is below the prediction. For every table. -/
def Obligations.CodeSignBit : Prop :=
  ∀ (t : Rom) (x : Sample) (r : StateRegister), (encodeCode t x r).getLsbD 3 = true ↔ x.toInt < r.pred.toInt

/-- R62, R82 and R100's first corner case: a difference of 0 encodes as code 0, never 8, at every legal index, and the prediction still
moves up by `step >> 3`, to at most
32767. R100's remark that this is 0 at index 0 to 7 contradicts R42, by which it is 0 at index 0 and 1 at index 1 to 7; the statement
follows R42 and R85, the model's reading (log entry 8). The table's contents are log entry 3. -/
def Obligations.ZeroDifferenceIsCodeZero : Prop :=
  ∀ r : StateRegister, r.legal = true →
    encodeCode rom r.pred r = 0 ∧ (update rom 0 r).pred.toInt = min 32767 (r.pred.toInt + (rom.stepAt r.idx / 8 : Nat))

/-- R100's third corner case: the largest positive difference gives code 7 at every legal index and the largest negative one code 15.
That the steps are small enough for it rests on the default table (log entry 3), not on R43. -/
def Obligations.LargestDifferencesSaturate : Prop :=
  ∀ i : StepIndex, i.toNat ≤ 88 →
    encodeCode rom 0x7FFF ⟨0x8000, i⟩ = 7 ∧ encodeCode rom 0x8000 ⟨0x7FFF, i⟩ = 15

/-- R85: `diffq` is `step >> 3` plus `step`, `step >> 1`, `step >> 2` for each set magnitude bit; the sign bit has no part in it; at the
steps of the default table it is at most 61436. -/
def Obligations.DequantizeSums : Prop :=
  ∀ (c : Code) (st : Nat),
    dequantize c st = st / 8 + (if c.getLsbD 2 then st else 0) + (if c.getLsbD 1 then st / 2 else 0) +
      (if c.getLsbD 0 then st / 4 else 0) ∧
    dequantize (c ^^^ 8) st = dequantize c st ∧ (st ≤ 32767 → dequantize c st ≤ 61436)

/-- R86: the new prediction is the old one minus `diffq` where the sign bit is set and plus it otherwise, clamped to
[-32768, 32767], never wrapped; with a `diffq` of at most 61436 the sum before the clamp is in [-94204, 94203]. -/
def Obligations.PredictorSaturates : Prop :=
  ∀ (p : Sample) (c : Code) (d : Nat),
    (predictorUpdate p c d).toInt =
      max (-32768) (min 32767 (if c.getLsbD 3 then p.toInt - d else p.toInt + d)) ∧
    (d ≤ 61436 → -94204 ≤ predictorSum p c d ∧ predictorSum p c d ≤ 94203)

/-- R87: the new index is the old one plus the table's delta for the whole code, clamped to [0, 88], for every table; hence the
clamp-boundary property; with the default table (log entry 3) and a legal index the sum before the clamp is in [-1, 96]. -/
def Obligations.IndexSaturates : Prop :=
  (∀ (t : Rom) (i : StepIndex) (c : Code),
    ((indexUpdate t i c).toNat : Int) = max 0 (min 88 ((i.toNat : Int) + t.indexAt c))) ∧
  (∀ (t : Rom) (c : Code), 0 < t.indexAt c → indexUpdate t 88 c = 88) ∧
  (∀ (t : Rom) (c : Code), t.indexAt c < 0 → indexUpdate t 0 c = 0) ∧
  (∀ (i : StepIndex) (c : Code), i.toNat ≤ 88 → -1 ≤ (i.toNat : Int) + rom.indexAt c ∧ (i.toNat : Int) + rom.indexAt c ≤ 96)

/-- R93, which the spec marks as its own inference from the clamps of R86 and R87: `Update` keeps the invariant. For every table and from every register contents, legal or not, the new index is in [0, 88] and
the new prediction in [-32768, 32767]. -/
def Obligations.UpdateKeepsRanges : Prop :=
  ∀ (t : Rom) (c : Code) (r : StateRegister),
    (update t c r).idx.toNat ≤ 88 ∧ -32768 ≤ (update t c r).pred.toInt ∧ (update t c r).pred.toInt ≤ 32767

/-- R91: the ranges of the intermediate values with the default tables and a legal index. -/
def Obligations.IntermediateRanges : Prop :=
  ∀ (x : Sample) (c : Code) (r : StateRegister), r.legal = true →
    (7 ≤ rom.stepAt r.idx ∧ rom.stepAt r.idx ≤ 32767) ∧ (-65535 ≤ diff x r.pred ∧ diff x r.pred ≤ 65535) ∧
    mag (diff x r.pred) ≤ 65535 ∧ dequantize c (rom.stepAt r.idx) ≤ 61436 ∧
    (-94204 ≤ predictorSum r.pred c (dequantize c (rom.stepAt r.idx)) ∧
      predictorSum r.pred c (dequantize c (rom.stepAt r.idx)) ≤ 94203) ∧
    (-1 ≤ rom.indexAt c ∧ rom.indexAt c ≤ 8) ∧
    (-1 ≤ (indexValue r.idx : Int) + rom.indexAt c ∧ (indexValue r.idx : Int) + rom.indexAt c ≤ 96)

/-- R95: the reconstruction error is at most 65535, and it is not bounded by the step: from stream start the sample 1000 leaves an error
of 989 at step 7. -/
def Obligations.ReconstructionErrorBound : Prop :=
  (∀ (x : Sample) (r : StateRegister), |x.toInt - (encodeSample x r).2.pred.toInt| ≤ 65535) ∧
  (1000#16).toInt - (encodeSample 1000 .streamStart).2.pred.toInt = 989 ∧ rom.stepAt 0 = 7

/-! ### Encodings (30_encoding.md) -/

/-- R63, R64: each field of ECMD and DCMD is its port, DCMD[15:4] reads as 0, and the two bundles determine every port value. -/
def Obligations.BundlesPackPorts : Prop :=
  ∀ p : Inputs,
    (p.ecmd.getLsbD 41 = p.rst ∧ p.ecmd.getLsbD 40 = p.encLoad ∧ p.ecmd.getLsbD 39 = p.encInValid ∧
      p.ecmd.extractLsb' 32 7 = p.encLoadIndex ∧ p.ecmd.extractLsb' 16 16 = p.encLoadPred ∧
      p.ecmd.extractLsb' 0 16 = p.encInSample) ∧
    (p.dcmd.getLsbD 41 = p.rst ∧ p.dcmd.getLsbD 40 = p.decLoad ∧ p.dcmd.getLsbD 39 = p.decInValid ∧
      p.dcmd.extractLsb' 32 7 = p.decLoadIndex ∧ p.dcmd.extractLsb' 16 16 = p.decLoadPred ∧
      p.dcmd.extractLsb' 4 12 = 0 ∧ p.dcmd.extractLsb' 0 4 = p.decInCode) ∧
    Inputs.ofBundles p.ecmd p.dcmd = p

/-- R65, R66, R67: each channel's operation by priority rst, load, valid, with the operands from the bits R67 names. -/
def Obligations.DecodeByPriority : Prop :=
  ∀ w : Bundle,
    decodeEcmd w = (if w.getLsbD 41 then .rst
      else if w.getLsbD 40 then .lde (w.extractLsb' 16 16) (w.extractLsb' 32 7)
      else if w.getLsbD 39 then .enc (w.extractLsb' 0 16) else .enop) ∧
    decodeDcmd w = (if w.getLsbD 41 then .rst
      else if w.getLsbD 40 then .ldd (w.extractLsb' 16 16) (w.extractLsb' 32 7)
      else if w.getLsbD 39 then .dec (w.extractLsb' 0 4) else .dnop)

/-- R65, R66, R69 with opcode_table.json: on each channel, every bundle lies in exactly the row of the table whose mnemonic its
operation has: no bundle is left without a row, and none has two. -/
def Obligations.DecodeAgreesWithTable : Prop :=
  ∀ (ch : Channel) (w : Bundle),
    (∀ row ∈ opcodeTable, row.onChannel ch = true → (row.holds w = true ↔ (decodeOn ch w).mnemonic = row.mnemonic)) ∧
    (opcodeTable.filter (fun row => row.onChannel ch && row.holds w)).length = 1

/-- R68: the fields the decoded operation does not use have no effect. First the decoding: two bundles that agree on the fields in use
give the same operation (under RST none but `r`; under a load `r`, `l`, `i`, `p`; under ENC and DEC `r`, `l`, `v` and the sample or
code; when idle `r`, `l`, `v`; DCMD[15:4] never). Then the step: it depends on the ports only through the decoded operations. -/
def Obligations.IgnoredFieldsHaveNoEffect : Prop :=
  (∀ w u : Bundle, w.getLsbD 41 = true → u.getLsbD 41 = true →
    decodeEcmd w = decodeEcmd u ∧ decodeDcmd w = decodeDcmd u) ∧
  (∀ w u : Bundle, w.getLsbD 41 = false → u.getLsbD 41 = false → w.getLsbD 40 = true → u.getLsbD 40 = true →
    w.extractLsb' 32 7 = u.extractLsb' 32 7 → w.extractLsb' 16 16 = u.extractLsb' 16 16 →
    decodeEcmd w = decodeEcmd u ∧ decodeDcmd w = decodeDcmd u) ∧
  (∀ w u : Bundle, w.getLsbD 41 = false → u.getLsbD 41 = false → w.getLsbD 40 = false → u.getLsbD 40 = false →
    w.getLsbD 39 = true → u.getLsbD 39 = true →
    (w.extractLsb' 0 16 = u.extractLsb' 0 16 → decodeEcmd w = decodeEcmd u) ∧
    (w.extractLsb' 0 4 = u.extractLsb' 0 4 → decodeDcmd w = decodeDcmd u)) ∧
  (∀ w u : Bundle, w.getLsbD 41 = false → u.getLsbD 41 = false → w.getLsbD 40 = false → u.getLsbD 40 = false →
    w.getLsbD 39 = false → u.getLsbD 39 = false → decodeEcmd w = decodeEcmd u ∧ decodeDcmd w = decodeDcmd u) ∧
  (∀ w u : Bundle, w.extractLsb' 0 4 = u.extractLsb' 0 4 → w.extractLsb' 16 26 = u.extractLsb' 16 26 →
    decodeDcmd w = decodeDcmd u) ∧
  (∀ (s : State) (p q : Inputs), decodeLine p = decodeLine q → step (s.drive p) = step (s.drive q))

/-- R63 to R67, R71: every operation, at every operand value, decodes from the bundle the encoder writes for it, on each channel it
fits. -/
def Obligations.DecodeOfEncode : Prop :=
  ∀ (ch : Channel) (i : Instr), i.fits ch = true → decodeOn ch (encode i) = i

/-- R63 to R67, R71: every well-formed pair of operations decodes from the port values that spell it. -/
def Obligations.LineRoundTrip : Prop :=
  ∀ l : Line, l.wf = true → decodeLine (encodeLine l) = l

/-- 30_encoding.md R71 and 95_test_vectors.md section 6: bundles written out in the spec decode to the operations they stand for. -/
def Obligations.SpecBundlesDecode : Prop :=
  decodeEcmd 0x20000000000 = .rst ∧ decodeDcmd 0x20000000000 = .rst ∧ decodeEcmd 0x388000003E8 = .rst ∧
  decodeEcmd 0x110FFED0000 = .lde (-19) 16 ∧ decodeEcmd 0x188000003E8 = .lde 0 8 ∧
  decodeEcmd 0x080000003E8 = .enc 1000 ∧ decodeEcmd 0x0800000FE0C = .enc (-500) ∧
  decodeEcmd 0x07FFFFFFFFF = .enop ∧ decodeDcmd 0x108000B0000 = .ldd 11 8 ∧ decodeDcmd 0x0800000000F = .dec 15 ∧
  decodeDcmd 0x00000000000 = .dnop

/-- R71, 93 U1: every number in range, written in decimal or as a raw pattern, as an ENC sample, a DEC code, or the prediction and the
index of an LDE or an LDD, spells the operation with that operand value, alone on its line or on both sides; every number out of range
in any of these places is refused, never masked, whatever stands beside it. A bundle written raw spells its operation. That a hexadecimal
number (or a raw bundle) wider than its field is out of range is the model's reading, log entry 10. -/
def Obligations.TraceNumbersSpellOperands : Prop :=
  (∀ (l : Literal) (x : Sample), SpellsSample l x →
    ∃ p, traceInputs (.encOnly (.enc l)) = some p ∧ decodeLine p = ⟨.enc x, .dnop⟩) ∧
  (∀ (l : Literal) (c : Code), SpellsCode l c →
    ∃ p, traceInputs (.decOnly (.dec l)) = some p ∧ decodeLine p = ⟨.enop, .dec c⟩) ∧
  (∀ (l m : Literal) (x : Sample) (c : Code), SpellsSample l x → SpellsCode m c →
    ∃ p, traceInputs (.both (.enc l) (.dec m)) = some p ∧ decodeLine p = ⟨.enc x, .dec c⟩) ∧
  (∀ (l m : Literal) (x : Sample) (i : StepIndex), SpellsSample l x → SpellsIndex m i →
    (∃ p, traceInputs (.encOnly (.lde l m)) = some p ∧ decodeLine p = ⟨.lde x i, .dnop⟩) ∧
    (∃ p, traceInputs (.decOnly (.ldd l m)) = some p ∧ decodeLine p = ⟨.enop, .ldd x i⟩)) ∧
  (∀ (l m k n : Literal) (x y : Sample) (i j : StepIndex), SpellsSample l x → SpellsIndex m i → SpellsSample k y →
    SpellsIndex n j → ∃ p, traceInputs (.both (.lde l m) (.ldd k n)) = some p ∧ decodeLine p = ⟨.lde x i, .ldd y j⟩) ∧
  (∀ w : Nat, w < 2 ^ 42 →
    (∃ p, traceInputs (.encOnly (.raw w)) = some p ∧ (decodeLine p).e = decodeEcmd (BitVec.ofNat 42 w)) ∧
    (∃ p, traceInputs (.decOnly (.raw w)) = some p ∧ (decodeLine p).d = decodeDcmd (BitVec.ofNat 42 w))) ∧
  (∀ (l m : Literal) (e : EncOp) (d : DecOp), OutOfRange 16 (-32768) 32767 l →
    traceInputs (.encOnly (.enc l)) = none ∧ traceInputs (.both (.enc l) d) = none ∧
    traceInputs (.encOnly (.lde l m)) = none ∧ traceInputs (.both (.lde l m) d) = none ∧
    traceInputs (.decOnly (.ldd l m)) = none ∧ traceInputs (.both e (.ldd l m)) = none) ∧
  (∀ (l m : Literal) (e : EncOp) (d : DecOp), OutOfRange 7 0 127 m →
    traceInputs (.encOnly (.lde l m)) = none ∧ traceInputs (.both (.lde l m) d) = none ∧
    traceInputs (.decOnly (.ldd l m)) = none ∧ traceInputs (.both e (.ldd l m)) = none) ∧
  (∀ (l : Literal) (e : EncOp), OutOfRange 4 0 15 l →
    traceInputs (.decOnly (.dec l)) = none ∧ traceInputs (.both e (.dec l)) = none) ∧
  (∀ (w : Nat) (e : EncOp) (d : DecOp), 2 ^ 42 ≤ w →
    traceInputs (.encOnly (.raw w)) = none ∧ traceInputs (.both (.raw w) d) = none ∧
    traceInputs (.decOnly (.raw w)) = none ∧ traceInputs (.both e (.raw w)) = none)

/-! ### The operations: result, completion and what stays (41_encode.md, 42_decode.md, 43_state_control.md) -/

/-- R120: a bundle with bit 41 set is RST on either channel, whatever its other bits. RST completes in every state; every register of both channels is 0 and both channels are initialised. The whole next state is
given, so nothing else changes. -/
def Obligations.RstResetsBothChannels : Prop :=
  (∀ w : Bundle, w.getLsbD 41 = true → decodeEcmd w = .rst ∧ decodeDcmd w = .rst) ∧
  ∀ s : State, exec .rst s = .next
    { s with enc := { reg := ⟨0, 0⟩, initialised := true, outCode := 0, outValid := false },
             dec := { reg := ⟨0, 0⟩, initialised := true, outSample := 0, outValid := false } }

/-- R121: a bundle with bit 41 clear and bit 40 set is LDE, with `p` and `i` from bits 31:16 and 38:32. LDE completes in every state, initialised or not, with every operand: the prediction is loaded as it is, the index saturated
at 88, `E.out_valid` cleared, the channel initialised; `E.out_code` and everything else hold. -/
def Obligations.LdeLoadsEncoder : Prop :=
  (∀ w : Bundle, w.getLsbD 41 = false → w.getLsbD 40 = true →
    decodeEcmd w = .lde (w.extractLsb' 16 16) (w.extractLsb' 32 7)) ∧
  ∀ (s : State) (p : Sample) (i : StepIndex), exec (.lde p i) s = .next
    { s with enc := { reg := ⟨p, if i.toNat ≤ 88 then i else 88⟩, initialised := true, outCode := s.enc.outCode,
                      outValid := false } }

/-- R122: LDD, decoded and executed in the same way on the decoder channel, in every state and with every operand; `D.out_sample` and everything else hold. -/
def Obligations.LddLoadsDecoder : Prop :=
  (∀ w : Bundle, w.getLsbD 41 = false → w.getLsbD 40 = true →
    decodeDcmd w = .ldd (w.extractLsb' 16 16) (w.extractLsb' 32 7)) ∧
  ∀ (s : State) (p : Sample) (i : StepIndex), exec (.ldd p i) s = .next
    { s with dec := { reg := ⟨p, if i.toNat ≤ 88 then i else 88⟩, initialised := true, outSample := s.dec.outSample,
                      outValid := false } }

/-- R100 (operands, encoding, pseudocode): a bundle with bits 41 and 40 clear and bit 39 set is ENC of bits 15:0. ENC completes wherever the encoder channel is initialised: the code is EncodeCode of the sample and the state (R84), the new
state is Update of that code and the state (R88), `E.out_valid` is 1; everything else holds. Elsewhere it raises the model fault. -/
def Obligations.EncEncodesSample : Prop :=
  (∀ w : Bundle, w.getLsbD 41 = false → w.getLsbD 40 = false → w.getLsbD 39 = true →
    decodeEcmd w = .enc (w.extractLsb' 0 16)) ∧
  (∀ (s : State) (x : Sample), s.enc.initialised = false → exec (.enc x) s = .fault .uninitialisedE) ∧
  ∀ (s : State) (x : Sample) (c : Code), s.enc.initialised = true → c = encodeCode rom x s.enc.reg → exec (.enc x) s = .next
    { s with enc := { reg := update rom c s.enc.reg, initialised := true, outCode := c, outValid := true } }

/-- R101: a bundle with bits 41, 40 and 39 clear is ENOP, whatever its other bits. ENOP completes in every state: `E.out_valid` becomes 0 and everything else holds; an uninitialised channel stays so. The idle cycle
changes nothing in what a following ENC answers, so neither does a run of them (R101's corner case, which the spec marks as its own
inference from R100 and R101). -/
def Obligations.EnopClearsValid : Prop :=
  (∀ w : Bundle, w.getLsbD 41 = false → w.getLsbD 40 = false → w.getLsbD 39 = false → decodeEcmd w = .enop) ∧
  (∀ s : State, exec .enop s = .next { s with enc := { s.enc with outValid := false } }) ∧
  (∀ (s t : State) (x : Sample), exec .enop s = .next t → exec (.enc x) t = exec (.enc x) s)

/-- R110: a bundle with bits 41 and 40 clear and bit 39 set is DEC of bits 3:0. DEC completes wherever the decoder channel is initialised, for all 16 codes: the new state is Update of the code and the state
(R88), `D.out_sample` is the new prediction, `D.out_valid` is 1; everything else holds. Elsewhere it
raises the model fault. -/
def Obligations.DecDecodesCode : Prop :=
  (∀ w : Bundle, w.getLsbD 41 = false → w.getLsbD 40 = false → w.getLsbD 39 = true →
    decodeDcmd w = .dec (w.extractLsb' 0 4)) ∧
  (∀ (s : State) (c : Code), s.dec.initialised = false → exec (.dec c) s = .fault .uninitialisedD) ∧
  ∀ (s : State) (c : Code) (r : StateRegister), s.dec.initialised = true → r = update rom c s.dec.reg → exec (.dec c) s = .next
    { s with dec := { reg := r, initialised := true, outSample := r.pred, outValid := true } }

/-- R111: DNOP, decoded and executed in the same way on the decoder channel: `D.out_valid` becomes 0 and everything else holds; it changes
nothing in what a following DEC answers (R111's corner case, which the spec marks as its own inference from R110 and R111). -/
def Obligations.DnopClearsValid : Prop :=
  (∀ w : Bundle, w.getLsbD 41 = false → w.getLsbD 40 = false → w.getLsbD 39 = false → decodeDcmd w = .dnop) ∧
  (∀ s : State, exec .dnop s = .next { s with dec := { s.dec with outValid := false } }) ∧
  (∀ (s t : State) (c : Code), exec .dnop s = .next t → exec (.dec c) t = exec (.dec c) s)

/-- R55, R24, R22 (frame of LDE, ENC, ENOP): the decoder channel and the model's own fields (log entries 1 and 2) are unchanged; `E.out_code` changes only
under ENC; `E.pred` and `E.idx` hold under ENOP; the channel is initialised after if it was before; `E.out_valid` is 1 exactly after
ENC. -/
def Obligations.EncoderOperationsFrame : Prop :=
  ∀ (i : Instr) (s t : State), i.fits .encoder = true → i ≠ .rst → exec i s = .next t →
    t.dec = s.dec ∧ t.inputs = s.inputs ∧ t.edges = s.edges ∧
    (t.enc.outCode ≠ s.enc.outCode → ∃ x, i = .enc x) ∧ (t.enc.reg ≠ s.enc.reg → i ≠ .enop) ∧
    (s.enc.initialised = true → t.enc.initialised = true) ∧ (t.enc.outValid = true ↔ ∃ x, i = .enc x)

/-- R55, R24, R22 (frame of LDD, DEC, DNOP): the encoder channel and the model's own fields (log entries 1 and 2) are unchanged; `D.out_sample` changes only
under DEC; `D.pred` and `D.idx` hold under DNOP; the channel is initialised after if it was before; `D.out_valid` is 1 exactly after
DEC. -/
def Obligations.DecoderOperationsFrame : Prop :=
  ∀ (i : Instr) (s t : State), i.fits .decoder = true → i ≠ .rst → exec i s = .next t →
    t.enc = s.enc ∧ t.inputs = s.inputs ∧ t.edges = s.edges ∧
    (t.dec.outSample ≠ s.dec.outSample → ∃ c, i = .dec c) ∧ (t.dec.reg ≠ s.dec.reg → i ≠ .dnop) ∧
    (s.dec.initialised = true → t.dec.initialised = true) ∧ (t.dec.outValid = true ↔ ∃ c, i = .dec c)

/-- R123, which the spec marks as its own inference from R29, R121 and R122: a state observed on an initialised channel's ports and later loaded, into either channel and from whatever state, is the state
that was observed: its index is not changed by the saturation. Over states that meet the invariant (`StepKeepsInvariant`). -/
def Obligations.SaveAndRestoreIsExact : Prop :=
  ∀ s u : State, s.Inv →
    (s.enc.initialised = true →
      (∃ t, exec (.lde s.outputs.encStatePred s.outputs.encStateIndex) u = .next t ∧ t.enc.reg = s.enc.reg) ∧
      (∃ t, exec (.ldd s.outputs.encStatePred s.outputs.encStateIndex) u = .next t ∧ t.dec.reg = s.enc.reg)) ∧
    (s.dec.initialised = true →
      (∃ t, exec (.lde s.outputs.decStatePred s.outputs.decStateIndex) u = .next t ∧ t.enc.reg = s.dec.reg) ∧
      (∃ t, exec (.ldd s.outputs.decStatePred s.outputs.decStateIndex) u = .next t ∧ t.dec.reg = s.dec.reg))

/-- R28, R29: each output port shows its register. -/
def Obligations.PortsShowRegisters : Prop :=
  ∀ s : State, s.outputs =
    { encOutCode := s.enc.outCode, encOutValid := s.enc.outValid, encStatePred := s.enc.reg.pred,
      encStateIndex := s.enc.reg.idx, decOutSample := s.dec.outSample, decOutValid := s.dec.outValid,
      decStatePred := s.dec.reg.pred, decStateIndex := s.dec.reg.idx }

/-! ### One edge (60_exceptions.md, 70_reset_and_hazards.md) -/

/-- R65, R66, R144: a step takes the ports' values, uses them up, and runs what they decode to: RST once where `rst` is 1; otherwise both
channels' operations. That the encoder's runs first, and the decoder's only where it answers a next state, is the model's choice (log
entry 6), which shows only where both would fault. That the ports' values are the first of `inputs`, and that a step counts one edge, are
the model's own fields (log entries 1 and 2). -/
def Obligations.StepRunsDecodedOperations : Prop :=
  (∀ s : State, s.pins.rst = true → step s = exec .rst s.advance) ∧
  (∀ s : State, s.pins.rst = false →
    step s = andThen (exec (decodeEcmd s.pins.ecmd) s.advance) (exec (decodeDcmd s.pins.dcmd))) ∧
  (∀ (s : State) (p : Inputs) (rest : List Inputs), s.inputs = p :: rest →
    s.pins = p ∧ s.advance = { s with inputs := rest, edges := s.edges + 1 })

/-- R65, R71 and log entries 1 and 7: an opcode-table word put on the encoder's ports is what the next step runs: RST alone, or the encoder's
operation with DNOP on the decoder channel. -/
def Obligations.FetchWordIsRun : Prop :=
  ∀ (s : State) (n w : Nat) (i : Instr), decodeTableWord n w = some i →
    (i = .rst → step (s.withFetchWord n w) = exec .rst s.advance) ∧
    (i ≠ .rst → step (s.withFetchWord n w) = andThen (exec i s.advance) (exec .dnop))

/-- R160, R162: one rising edge with `rst = 1`, from any state and whatever the other inputs, leaves every register at the value R160
gives. -/
def Obligations.ResetEdgeSuffices : Prop :=
  ∀ s : State, s.pins.rst = true → ∃ t, step s = .next t ∧
    t.enc.reg.pred = 0 ∧ t.dec.reg.pred = 0 ∧ t.enc.reg.idx = 0 ∧ t.dec.reg.idx = 0 ∧ t.enc.outCode = 0 ∧
    t.dec.outSample = 0 ∧ t.enc.outValid = false ∧ t.dec.outValid = false ∧ t.Ready

/-- R145, R100, R110, R163, R125: exactly when a step faults. The encoder's fault: an ENC is decoded and the encoder channel was never
initialised. The decoder's: a DEC is decoded, the decoder channel was never initialised, and the encoder's fault is not there (which of
two faults at one edge is reported is the model's choice, log entry 6). No step is ever refused. -/
def Obligations.StepFaultsExactlyWhen : Prop :=
  ∀ s : State,
    (step s = .fault .uninitialisedE ↔
      (s.pins.rst = false ∧ s.pins.encLoad = false ∧ s.pins.encInValid = true) ∧ s.enc.initialised = false) ∧
    (step s = .fault .uninitialisedD ↔
      (s.pins.rst = false ∧ s.pins.decLoad = false ∧ s.pins.decInValid = true) ∧ s.dec.initialised = false ∧
      ¬((s.pins.rst = false ∧ s.pins.encLoad = false ∧ s.pins.encInValid = true) ∧ s.enc.initialised = false)) ∧
    (∀ r, step s ≠ .refused r)

/-- R125, R163, R165: once both channels have been initialised, every edge completes, whatever is on the ports, and leaves both
initialised. The clauses on `inputs` and `edges` are about the model's own fields: a step uses up one listed input (log entry 1) and counts
one edge (log entry 2). -/
def Obligations.ReadyStepCompletes : Prop :=
  ∀ s : State, s.Ready → ∃ t, step s = .next t ∧ t.Ready ∧ t.inputs = s.inputs.tail ∧ t.edges = s.edges + 1

/-- R125, R140, R163: from a state in which both channels have been initialised, a run of any length, with any values on the ports,
meets no fault and no refusal. -/
def Obligations.ReadyRunNeverStops : Prop :=
  ∀ (n : Nat) (s : State), s.Ready → ∃ t : State, Host.Core.run Sys2Proof.core n s = .next t ∧ t.Ready

/-- R22, R29, R93: every step, from every state, with any values on the ports, keeps the invariant: an initialised channel's index is in
[0, 88], and an initialised decoder with its valid bit up shows its own prediction. -/
def Obligations.StepKeepsInvariant : Prop :=
  ∀ s t : State, s.Inv → step s = .next t → t.Inv

/-- R160, R161: the invariant holds after reset and at power-up; both channels are initialised after reset and neither at power-up. -/
def Obligations.ResetAndPowerUpMeetInvariant : Prop :=
  State.reset.Inv ∧ State.reset.Ready ∧ State.powerUp.Inv ∧ State.powerUp.enc.initialised = false ∧
  State.powerUp.dec.initialised = false

/-- R24, R161: after any edge, each valid bit is what that edge's inputs say, whatever the state was: 1 exactly after an ENC (a DEC). -/
def Obligations.ValidBitsFollowInputs : Prop :=
  ∀ s t : State, step s = .next t →
    t.enc.outValid = (!s.pins.rst && !s.pins.encLoad && s.pins.encInValid) ∧
    t.dec.outValid = (!s.pins.rst && !s.pins.decLoad && s.pins.decInValid)

/-- R103, R169: an edge that is neither RST nor ENC leaves `enc_out_code` as it was, and one that is neither RST nor DEC leaves
`dec_out_sample`; under an idle operation the observed state holds too (R29). -/
def Obligations.OutputsHoldBetweenResults : Prop :=
  ∀ s t : State, step s = .next t → s.pins.rst = false →
    ((s.pins.encLoad = true ∨ s.pins.encInValid = false) → t.outputs.encOutCode = s.outputs.encOutCode) ∧
    ((s.pins.decLoad = true ∨ s.pins.decInValid = false) → t.outputs.decOutSample = s.outputs.decOutSample) ∧
    ((s.pins.encLoad = false ∧ s.pins.encInValid = false) →
      t.outputs.encStatePred = s.outputs.encStatePred ∧ t.outputs.encStateIndex = s.outputs.encStateIndex) ∧
    ((s.pins.decLoad = false ∧ s.pins.decInValid = false) →
      t.outputs.decStatePred = s.outputs.decStatePred ∧ t.outputs.decStateIndex = s.outputs.decStateIndex)

/-- R29: after an edge that performs a DEC, `dec_state_pred` equals `dec_out_sample` and `dec_out_valid` is 1. -/
def Obligations.DecodedSampleIsPrediction : Prop :=
  ∀ s t : State, step s = .next t → s.pins.rst = false → s.pins.decLoad = false → s.pins.decInValid = true →
    t.outputs.decOutSample = t.outputs.decStatePred ∧ t.outputs.decOutValid = true

/-- R166, R144: a request in the same cycle as a higher-priority one on its channel is dropped: the step is the same as without it. -/
def Obligations.LowerRequestsAreDropped : Prop :=
  ∀ (s : State) (p : Inputs),
    (p.rst = true ∨ p.encLoad = true → ∀ (v : Bool) (x : Sample),
      step (s.drive { p with encInValid := v, encInSample := x }) = step (s.drive p)) ∧
    (p.rst = true ∨ p.decLoad = true → ∀ (v : Bool) (c : Code),
      step (s.drive { p with decInValid := v, decInCode := c }) = step (s.drive p)) ∧
    (p.rst = true → ∀ (l : Bool) (q : Sample) (i : StepIndex),
      step (s.drive { p with encLoad := l, encLoadPred := q, encLoadIndex := i }) = step (s.drive p) ∧
      step (s.drive { p with decLoad := l, decLoadPred := q, decLoadIndex := i }) = step (s.drive p))

/-- R54, R55: the two operations of one edge give the same next state in whichever order they are performed. -/
def Obligations.ChannelOrderIsUnseen : Prop :=
  ∀ (s t : State) (i j : Instr), i.fits .encoder = true → j.fits .decoder = true → i ≠ .rst → j ≠ .rst →
    (andThen (exec i s) (exec j) = .next t ↔ andThen (exec j s) (exec i) = .next t)

/-- R20, R23, R55: neither channel can learn anything of the other. Two machines that agree on one channel and on that channel's
bundle agree on it after a step, whatever the other channel holds and is told, if both steps complete. -/
def Obligations.ChannelsAreIsolated : Prop :=
  ∀ s u t v : State, step s = .next t → step u = .next v →
    (s.enc = u.enc → s.pins.ecmd = u.pins.ecmd → t.enc = v.enc) ∧
    (s.dec = u.dec → s.pins.dcmd = u.pins.dcmd → t.dec = v.dec)

/-! ### Streams and the mirror property -/

/-- R94, first part, which the spec marks as its own inference from R84 and R88: from equal states, the state and sample that DEC gives for the code an ENC produced are the state and prediction
the ENC left. -/
def Obligations.DecMirrorsEnc : Prop :=
  ∀ (s : State) (x : Sample), s.Ready → s.enc.reg = s.dec.reg →
    ∃ t u, exec (.enc x) s = .next t ∧ exec (.dec t.enc.outCode) s = .next u ∧ u.dec.reg = t.enc.reg ∧
      u.dec.outSample = t.enc.reg.pred

/-- R94, R165, R170 (95_test_vectors.md P2): the decoder one cycle behind. Where decoding the code on the encoder's port would bring the
decoder to the encoder's state, an edge with `ENC x || DEC <that code>` brings it there, and the same holds again of the new code. -/
def Obligations.DecoderFollowsOneCycleBehind : Prop :=
  ∀ (s : State) (x : Sample), s.Ready → update rom s.enc.outCode s.dec.reg = s.enc.reg →
    decodeLine s.pins = ⟨.enc x, .dec s.enc.outCode⟩ →
    ∃ t, step s = .next t ∧ t.dec.reg = s.enc.reg ∧ update rom t.enc.outCode t.dec.reg = t.enc.reg

/-- R94, R102, R112, which the spec marks as its own inferences: given every code of the encoder, in order, from an equal starting state, the decoder passes through the encoder's
states, one by one, and its samples are the encoder's predictions. For every list of samples and every starting state. -/
def Obligations.StreamsMirror : Prop :=
  ∀ (r : StateRegister) (xs : List Sample),
    decodeStates r (encodeStream r xs) = encodeStates r xs ∧
    decodeStream r (encodeStream r xs) = (encodeStates r xs).map StateRegister.pred ∧
    (encodeStream r xs).length = xs.length

/-- R72, R102, R170: with ENCSTREAM of any samples on the ports, from any state, initialised or not, the machine computes the
source's `encode_stream`: one edge per sample after the load, the last code on the port with the valid bit up, the state that of the
fold; the other channel is left as it was but for its valid bit. Taken at each first part of a stream (what follows on the ports is
arbitrary), it gives every code in its cycle. R102 is marked by the spec as its own inference; that the ports' values come from `inputs`
and are used up is the model's (log entry 1). -/
def Obligations.EncstreamComputesFold : Prop :=
  ∀ (s : State) (xs : List Sample) (rest : List Inputs), s.inputs = encStream xs ++ rest →
    ∃ t : State, Host.Core.run Sys2Proof.core (xs.length + 1) s = .next t ∧
      t.enc.reg = finalState .streamStart (encodeStates .streamStart xs) ∧ t.enc.initialised = true ∧
      (∀ c, (encodeStream .streamStart xs).getLast? = some c → t.enc.outCode = c ∧ t.enc.outValid = true) ∧
      t.dec = { s.dec with outValid := false } ∧ t.inputs = rest

/-- R72, R112, R170: the same of DECSTREAM and `decode_stream`. R112 is marked by the spec as its own inference; `inputs` is the model's (log
entry 1). -/
def Obligations.DecstreamComputesFold : Prop :=
  ∀ (s : State) (cs : List Code) (rest : List Inputs), s.inputs = decStream cs ++ rest →
    ∃ t : State, Host.Core.run Sys2Proof.core (cs.length + 1) s = .next t ∧
      t.dec.reg = finalState .streamStart (decodeStates .streamStart cs) ∧ t.dec.initialised = true ∧
      (∀ y, (decodeStream .streamStart cs).getLast? = some y → t.dec.outSample = y ∧ t.dec.outValid = true) ∧
      t.enc = { s.enc with outValid := false } ∧ t.inputs = rest

/-- R94, R102, R112 on the machine: encode any samples, then decode all their codes, from any state: the two state registers end equal,
and the last reconstructed sample is the encoder's prediction. The three rules are marked by the spec as its own inferences; `inputs` is
the model's (log entry 1). -/
def Obligations.RoundTripEndsInStep : Prop :=
  ∀ (s : State) (xs : List Sample) (rest : List Inputs),
    s.inputs = encStream xs ++ decStream (encodeStream .streamStart xs) ++ rest →
    ∃ t : State, Host.Core.run Sys2Proof.core ((xs.length + 1) + (xs.length + 1)) s = .next t ∧ t.dec.reg = t.enc.reg ∧
      (xs ≠ [] → t.dec.outSample = t.enc.reg.pred ∧ t.dec.outValid = true) ∧ t.inputs = rest
end

