-- ==== Sys2Proof/Laws/Datapath.lean ====
section
/-! SUPPORT. What the narrowing operations give (spec/00_scope.md R8), and the reads of the tables. -/

namespace Sys2Proof.Machine

/-- `clamp` stays in its range. -/
theorem clamp_mem (v lo hi : Int) (h : lo ≤ hi) : lo ≤ clamp v lo hi ∧ clamp v lo hi ≤ hi := by
  unfold clamp; split <;> (try split) <;> omega

/-- `clamp` as a minimum and a maximum. -/
theorem clamp_eq_max_min (v lo hi : Int) (h : lo ≤ hi) : clamp v lo hi = max lo (min hi v) := by
  unfold clamp; split <;> (try split) <;> omega

/-- A clamped sample word has the clamped value: the word loses nothing. -/
theorem clampSample_toInt (v : Int) : (clampSample v).toInt = clamp v (-32768) 32767 := by
  have := clamp_mem v (-32768) 32767 (by omega)
  rw [clampSample, BitVec.toInt_ofInt_eq_self] <;> omega

/-- A clamped index word has the clamped value: the word loses nothing. -/
theorem clampIndex_toNat (v : Int) : ((clampIndex v).toNat : Int) = clamp v 0 88 := by
  have := clamp_mem v 0 88 (by omega)
  rw [clampIndex, BitVec.toNat_ofInt]
  have h : clamp v 0 88 % ((2 ^ 7 : Nat) : Int) = clamp v 0 88 := Int.emod_eq_of_lt (by omega) (by omega)
  rw [h]; omega

/-- A clamped index is legal. -/
theorem clampIndex_le (v : Int) : (clampIndex v).toNat ≤ 88 := by
  have := clamp_mem v 0 88 (by omega)
  have := clampIndex_toNat v
  omega

/-- What a load writes is a legal index. -/
theorem saturateIndex_le (i : StepIndex) : (saturateIndex i).toNat ≤ 88 := by
  simp only [saturateIndex, indexValue, BitVec.toNat_ofNat]; omega

/-- A legal index is loaded as it is. -/
theorem saturateIndex_of_le {i : StepIndex} (h : i.toNat ≤ 88) : saturateIndex i = i := by
  rw [saturateIndex, indexValue, Nat.min_eq_left h, BitVec.ofNat_toNat, BitVec.setWidth_eq]

/-- An index above 88 is loaded as 88. -/
theorem saturateIndex_of_gt {i : StepIndex} (h : 88 < i.toNat) : saturateIndex i = 88 := by
  rw [saturateIndex, indexValue, Nat.min_eq_right (by omega)]; rfl

/-- The remainder of one comparison of the quantizer. -/
theorem remainder_eq (r threshold : Nat) : remainder r threshold = if r ≥ threshold then r - threshold else r := by
  simp [remainder, reaches]

/-- A threshold's contribution to the quantized value, and what is left, add up to what was there. -/
theorem remainder_add (r threshold : Nat) : remainder r threshold + contribution (reaches r threshold) threshold = r := by
  simp only [remainder, contribution, reaches, decide_eq_true_eq]; split <;> omega

/-- The state an ENC leaves is the state `Update` gives for its code: the encoder has no update of its own (R88, R89). -/
theorem encodeSample_state (x : Sample) (r : StateRegister) :
    (encodeSample x r).2 = (decodeCode (encodeSample x r).1 r).2 := rfl

end Sys2Proof.Machine
end

