-- ==== Sys2Proof/Laws/Decode.lean ====
section
/-! SUPPORT. The fields of a packed bundle, and what each channel decodes from the ports. -/

namespace Sys2Proof

variable (r l v : Bool) (i : StepIndex) (p low : BitVec 16)

/-- Each bit of a packed bundle (R63, R64). -/
theorem pack_getLsbD (k : Nat) :
    (pack r l v i p low).getLsbD k =
      if k < 16 then low.getLsbD k else if k < 32 then p.getLsbD (k - 16) else if k < 39 then i.getLsbD (k - 32)
      else if k = 39 then v else if k = 40 then l else if k = 41 then r else false := by
  show BitVec.getLsbD (w := 1 + 1 + 1 + 7 + 16 + 16)
    (BitVec.ofBool r ++ BitVec.ofBool l ++ BitVec.ofBool v ++ i ++ p ++ low) k = _
  simp only [BitVec.getLsbD_append, BitVec.getLsbD_ofBool]
  rcases Nat.lt_or_ge k 16 with h | h
  · simp [h]
  rcases Nat.lt_or_ge k 32 with h' | h'
  · simp [show ¬ k < 16 by omega, show k - 16 < 16 by omega, h']
  rcases Nat.lt_or_ge k 39 with h'' | h''
  · simp [show ¬ k < 16 by omega, show ¬ k - 16 < 16 by omega, show ¬ k < 32 by omega, h'',
      show k - 16 - 16 = k - 32 by omega, show k - 32 < 7 by omega]
  rcases Nat.lt_or_ge k 42 with h₃ | h₃
  · obtain rfl | rfl | rfl : k = 39 ∨ k = 40 ∨ k = 41 := by omega
    all_goals simp
  · simp [show ¬ k < 16 by omega, show ¬ k - 16 < 16 by omega, show ¬ k - 16 - 16 < 7 by omega, show ¬ k < 32 by omega,
      show ¬ k < 39 by omega, show ¬ k = 39 by omega, show ¬ k = 40 by omega, show ¬ k = 41 by omega,
      show ¬ k - 16 - 16 - 7 < 1 by omega, show ¬ k - 16 - 16 - 7 - 1 < 1 by omega, show ¬ k - 16 - 16 - 7 - 1 - 1 = 0 by omega]

@[simp] theorem pack_r : Bundle.r (pack r l v i p low) = r := by simp only [Bundle.r, pack_getLsbD]; rfl
@[simp] theorem pack_l : Bundle.l (pack r l v i p low) = l := by simp only [Bundle.l, pack_getLsbD]; rfl
@[simp] theorem pack_v : Bundle.v (pack r l v i p low) = v := by simp only [Bundle.v, pack_getLsbD]; rfl

@[simp] theorem pack_i : Bundle.i (pack r l v i p low) = i := by
  ext k hk
  rw [Bundle.i, BitVec.getElem_extractLsb', pack_getLsbD, if_neg (by omega), if_neg (by omega), if_pos (by omega),
    Nat.add_sub_cancel_left, BitVec.getLsbD_eq_getElem hk]

@[simp] theorem pack_p : Bundle.p (pack r l v i p low) = p := by
  ext k hk
  rw [Bundle.p, BitVec.getElem_extractLsb', pack_getLsbD, if_neg (by omega), if_pos (by omega),
    Nat.add_sub_cancel_left, BitVec.getLsbD_eq_getElem hk]

@[simp] theorem pack_s : Bundle.s (pack r l v i p low) = low := by
  ext k hk
  rw [Bundle.s, BitVec.getElem_extractLsb', pack_getLsbD, if_pos (by omega), Nat.zero_add, BitVec.getLsbD_eq_getElem hk]

@[simp] theorem pack_c (c : Code) : Bundle.c (pack r l v i p (0#12 ++ c)) = c := by
  ext k hk
  rw [Bundle.c, BitVec.getElem_extractLsb', pack_getLsbD, if_pos (by omega), Nat.zero_add, BitVec.getLsbD_append,
    if_pos hk, BitVec.getLsbD_eq_getElem hk]

/-- The twelve bits of DCMD with no wire read as 0 (R64). -/
theorem pack_noWire (c : Code) : (pack r l v i p (0#12 ++ c)).extractLsb' 4 12 = 0 := by
  ext k hk
  rw [BitVec.getElem_extractLsb', pack_getLsbD, if_pos (by omega), BitVec.getLsbD_append, if_neg (by omega)]
  simp

/-- Every bundle is the packing of its own fields. -/
theorem pack_fields (w : Bundle) : pack (Bundle.r w) (Bundle.l w) (Bundle.v w) (Bundle.i w) (Bundle.p w) (Bundle.s w) = w := by
  apply BitVec.eq_of_getLsbD_eq
  intro k hk
  rw [pack_getLsbD]
  simp only [Bundle.r, Bundle.l, Bundle.v, Bundle.i, Bundle.p, Bundle.s, BitVec.getLsbD_extractLsb']
  split_ifs with h₁ h₂ h₃ h₄ h₅ h₆
  · simp [h₁]
  · simp [show k - 16 < 16 by omega, show 16 + (k - 16) = k by omega]
  · simp [show k - 32 < 7 by omega, show 32 + (k - 32) = k by omega]
  · rw [h₄]
  · rw [h₅]
  · rw [h₆]
  · omega

/-- A mask over the three request bits keeps just those bits. -/
theorem pack_and_requests (a b c : Bool) :
    pack r l v i p low &&& pack a b c 0 0 0 = pack (r && a) (l && b) (v && c) 0 0 0 := by
  apply BitVec.eq_of_getLsbD_eq
  intro k hk
  rw [BitVec.getLsbD_and, pack_getLsbD, pack_getLsbD, pack_getLsbD]
  split_ifs <;> simp

/-- The masks of the opcode table: RST's, the loads', and the other rows'. -/
theorem mask_rst : (0x20000000000 : Bundle) = pack true false false 0 0 0 := by decide
theorem mask_load : (0x30000000000 : Bundle) = pack true true false 0 0 0 := by decide
theorem mask_valid : (0x38000000000 : Bundle) = pack true true true 0 0 0 := by decide
/-- The patterns of the opcode table that are no mask: the loads', and ENC's and DEC's. -/
theorem pattern_load : (0x10000000000 : Bundle) = pack false true false 0 0 0 := by decide
theorem pattern_valid : (0x08000000000 : Bundle) = pack false false true 0 0 0 := by decide

/-- Which bundles lie in RST's row. -/
theorem row_rst (w : Bundle) : (w &&& 0x20000000000 == 0x20000000000) = Bundle.r w := by
  rw [mask_rst]; conv_lhs => rw [← pack_fields w]
  rw [pack_and_requests]
  cases Bundle.r w <;> cases Bundle.l w <;> cases Bundle.v w <;> decide

/-- Which bundles lie in the row of a load. -/
theorem row_load (w : Bundle) : (w &&& 0x30000000000 == 0x10000000000) = (!Bundle.r w && Bundle.l w) := by
  rw [mask_load]; conv_lhs => rw [← pack_fields w]
  rw [pack_and_requests]
  cases Bundle.r w <;> cases Bundle.l w <;> cases Bundle.v w <;> decide

/-- Which bundles lie in the row of ENC, or of DEC. -/
theorem row_valid (w : Bundle) : (w &&& 0x38000000000 == 0x08000000000) = (!Bundle.r w && !Bundle.l w && Bundle.v w) := by
  rw [mask_valid]; conv_lhs => rw [← pack_fields w]
  rw [pack_and_requests]
  cases Bundle.r w <;> cases Bundle.l w <;> cases Bundle.v w <;> decide

/-- Which bundles lie in the row of ENOP, or of DNOP. -/
theorem row_idle (w : Bundle) : (w &&& 0x38000000000 == 0x00000000000) = (!Bundle.r w && !Bundle.l w && !Bundle.v w) := by
  rw [mask_valid]; conv_lhs => rw [← pack_fields w]
  rw [pack_and_requests]
  cases Bundle.r w <;> cases Bundle.l w <;> cases Bundle.v w <;> decide

/-- The encoder channel's operation, read off the ports (R65). -/
theorem decodeEcmd_pack :
    decodeEcmd (pack r l v i p low) = if r then .rst else if l then .lde p i else if v then .enc low else .enop := by
  simp [decodeEcmd]

/-- The decoder channel's operation, read off the ports (R66). -/
theorem decodeDcmd_pack (c : Code) :
    decodeDcmd (pack r l v i p (0#12 ++ c)) =
      if r then .rst else if l then .ldd p i else if v then .dec c else .dnop := by
  simp [decodeDcmd]

/-- What the encoder channel decodes at an edge. -/
theorem decode_ecmd (q : Inputs) :
    decodeEcmd q.ecmd = if q.rst then .rst else if q.encLoad then .lde q.encLoadPred q.encLoadIndex
      else if q.encInValid then .enc q.encInSample else .enop := decodeEcmd_pack ..

/-- What the decoder channel decodes at an edge. -/
theorem decode_dcmd (q : Inputs) :
    decodeDcmd q.dcmd = if q.rst then .rst else if q.decLoad then .ldd q.decLoadPred q.decLoadIndex
      else if q.decInValid then .dec q.decInCode else .dnop := decodeDcmd_pack ..

/-- The encoder channel decodes RST exactly where `rst` is 1. -/
theorem decode_ecmd_eq_rst (q : Inputs) : decodeEcmd q.ecmd = .rst ↔ q.rst = true := by
  rw [decode_ecmd]; split_ifs <;> simp_all

/-- The decoder channel decodes RST exactly where `rst` is 1. -/
theorem decode_dcmd_eq_rst (q : Inputs) : decodeDcmd q.dcmd = .rst ↔ q.rst = true := by
  rw [decode_dcmd]; split_ifs <;> simp_all

/-- What an encoder bundle decodes to fits the encoder channel. -/
theorem decodeEcmd_fits (w : Bundle) : (decodeEcmd w).fits .encoder = true := by
  unfold decodeEcmd; split_ifs <;> rfl

/-- What a decoder bundle decodes to fits the decoder channel. -/
theorem decodeDcmd_fits (w : Bundle) : (decodeDcmd w).fits .decoder = true := by
  unfold decodeDcmd; split_ifs <;> rfl

/-- The operations of one edge make a well-formed line. -/
theorem decodeLine_wf (q : Inputs) : (decodeLine q).wf = true := by
  have he := decode_ecmd_eq_rst q
  have hd := decode_dcmd_eq_rst q
  simp only [Line.wf, Line.encoderSide, Line.decoderSide, Line.oneReset, decodeLine, decodeEcmd_fits, decodeDcmd_fits,
    Bool.true_and, beq_iff_eq]
  rw [Bool.eq_iff_iff, beq_iff_eq, beq_iff_eq, he, hd]

end Sys2Proof
end

