-- ==== Sys2Proof/Laws/State.lean ====
section
/-! SUPPORT. One lemma per field per update of the state, so that no later proof unfolds a record update. -/

namespace Sys2Proof.Machine

@[simp] theorem EncChannel.setValid_reg (c : EncChannel) (v : Bool) : (c.setValid v).reg = c.reg := rfl
@[simp] theorem EncChannel.setValid_initialised (c : EncChannel) (v : Bool) : (c.setValid v).initialised = c.initialised := rfl
@[simp] theorem EncChannel.setValid_outCode (c : EncChannel) (v : Bool) : (c.setValid v).outCode = c.outCode := rfl
@[simp] theorem EncChannel.setValid_outValid (c : EncChannel) (v : Bool) : (c.setValid v).outValid = v := rfl

@[simp] theorem DecChannel.setValid_reg (c : DecChannel) (v : Bool) : (c.setValid v).reg = c.reg := rfl
@[simp] theorem DecChannel.setValid_initialised (c : DecChannel) (v : Bool) : (c.setValid v).initialised = c.initialised := rfl
@[simp] theorem DecChannel.setValid_outSample (c : DecChannel) (v : Bool) : (c.setValid v).outSample = c.outSample := rfl
@[simp] theorem DecChannel.setValid_outValid (c : DecChannel) (v : Bool) : (c.setValid v).outValid = v := rfl

@[simp] theorem EncChannel.emit_reg (c : EncChannel) (r : StateRegister) (k : Code) : (c.emit r k).reg = r := rfl
@[simp] theorem EncChannel.emit_initialised (c : EncChannel) (r : StateRegister) (k : Code) :
    (c.emit r k).initialised = c.initialised := rfl
@[simp] theorem EncChannel.emit_outCode (c : EncChannel) (r : StateRegister) (k : Code) : (c.emit r k).outCode = k := rfl
@[simp] theorem EncChannel.emit_outValid (c : EncChannel) (r : StateRegister) (k : Code) : (c.emit r k).outValid = true := rfl

@[simp] theorem DecChannel.emit_reg (c : DecChannel) (r : StateRegister) (y : Sample) : (c.emit r y).reg = r := rfl
@[simp] theorem DecChannel.emit_initialised (c : DecChannel) (r : StateRegister) (y : Sample) :
    (c.emit r y).initialised = c.initialised := rfl
@[simp] theorem DecChannel.emit_outSample (c : DecChannel) (r : StateRegister) (y : Sample) : (c.emit r y).outSample = y := rfl
@[simp] theorem DecChannel.emit_outValid (c : DecChannel) (r : StateRegister) (y : Sample) : (c.emit r y).outValid = true := rfl

@[simp] theorem EncChannel.load_reg (c : EncChannel) (r : StateRegister) : (c.load r).reg = r := rfl
@[simp] theorem EncChannel.load_initialised (c : EncChannel) (r : StateRegister) : (c.load r).initialised = true := rfl
@[simp] theorem EncChannel.load_outCode (c : EncChannel) (r : StateRegister) : (c.load r).outCode = c.outCode := rfl
@[simp] theorem EncChannel.load_outValid (c : EncChannel) (r : StateRegister) : (c.load r).outValid = false := rfl

@[simp] theorem DecChannel.load_reg (c : DecChannel) (r : StateRegister) : (c.load r).reg = r := rfl
@[simp] theorem DecChannel.load_initialised (c : DecChannel) (r : StateRegister) : (c.load r).initialised = true := rfl
@[simp] theorem DecChannel.load_outSample (c : DecChannel) (r : StateRegister) : (c.load r).outSample = c.outSample := rfl
@[simp] theorem DecChannel.load_outValid (c : DecChannel) (r : StateRegister) : (c.load r).outValid = false := rfl

@[simp] theorem EncChannel.afterReset_reg : EncChannel.afterReset.reg = .streamStart := rfl
@[simp] theorem EncChannel.afterReset_initialised : EncChannel.afterReset.initialised = true := rfl
@[simp] theorem EncChannel.afterReset_outCode : EncChannel.afterReset.outCode = 0 := rfl
@[simp] theorem EncChannel.afterReset_outValid : EncChannel.afterReset.outValid = false := rfl
@[simp] theorem DecChannel.afterReset_reg : DecChannel.afterReset.reg = .streamStart := rfl
@[simp] theorem DecChannel.afterReset_initialised : DecChannel.afterReset.initialised = true := rfl
@[simp] theorem DecChannel.afterReset_outSample : DecChannel.afterReset.outSample = 0 := rfl
@[simp] theorem DecChannel.afterReset_outValid : DecChannel.afterReset.outValid = false := rfl

@[simp] theorem State.setEnc_enc (s : State) (c : EncChannel) : (s.setEnc c).enc = c := rfl
@[simp] theorem State.setEnc_dec (s : State) (c : EncChannel) : (s.setEnc c).dec = s.dec := rfl
@[simp] theorem State.setEnc_inputs (s : State) (c : EncChannel) : (s.setEnc c).inputs = s.inputs := rfl
@[simp] theorem State.setEnc_edges (s : State) (c : EncChannel) : (s.setEnc c).edges = s.edges := rfl

@[simp] theorem State.setDec_enc (s : State) (c : DecChannel) : (s.setDec c).enc = s.enc := rfl
@[simp] theorem State.setDec_dec (s : State) (c : DecChannel) : (s.setDec c).dec = c := rfl
@[simp] theorem State.setDec_inputs (s : State) (c : DecChannel) : (s.setDec c).inputs = s.inputs := rfl
@[simp] theorem State.setDec_edges (s : State) (c : DecChannel) : (s.setDec c).edges = s.edges := rfl

/-- Writes to the two channels commute. -/
theorem State.setDec_setEnc (s : State) (c : EncChannel) (d : DecChannel) :
    (s.setDec d).setEnc c = (s.setEnc c).setDec d := rfl

@[simp] theorem State.advance_enc (s : State) : s.advance.enc = s.enc := rfl
@[simp] theorem State.advance_dec (s : State) : s.advance.dec = s.dec := rfl
@[simp] theorem State.advance_inputs (s : State) : s.advance.inputs = s.inputs.tail := rfl
@[simp] theorem State.advance_edges (s : State) : s.advance.edges = s.edges + 1 := rfl

@[simp] theorem State.drive_enc (s : State) (p : Inputs) : (s.drive p).enc = s.enc := rfl
@[simp] theorem State.drive_dec (s : State) (p : Inputs) : (s.drive p).dec = s.dec := rfl
@[simp] theorem State.drive_edges (s : State) (p : Inputs) : (s.drive p).edges = s.edges := rfl
@[simp] theorem State.drive_pins (s : State) (p : Inputs) : (s.drive p).pins = p := rfl
/-- What is driven at an edge is used up by that edge. -/
@[simp] theorem State.drive_advance (s : State) (p : Inputs) : (s.drive p).advance = s.advance := rfl

@[simp] theorem StateRegister.loaded_pred (p : Sample) (i : StepIndex) : (StateRegister.loaded p i).pred = p := rfl
@[simp] theorem StateRegister.loaded_idx (p : Sample) (i : StepIndex) : (StateRegister.loaded p i).idx = saturateIndex i := rfl

end Sys2Proof.Machine
end

