-- ==== Sys2Proof/Laws/Ops.lean ====
section
/-! SUPPORT. One lemma per shared operation that says everything it can answer, and what one operation and one step can do. -/

namespace Sys2Proof.Machine

/-- The model-level fault, or the state (60_exceptions.md R145). -/
theorem ifInitialised_cases (b : Bool) (f : Fault) (t : State) :
    (b = true ∧ ifInitialised b f t = .next t) ∨ (b = false ∧ ifInitialised b f t = .fault f) := by
  cases b
  · exact .inr ⟨rfl, rfl⟩
  · exact .inl ⟨rfl, rfl⟩

@[simp] theorem ifInitialised_next {b : Bool} {f : Fault} {t u : State} :
    ifInitialised b f t = .next u ↔ b = true ∧ t = u := by
  cases b <;> simp [ifInitialised]

@[simp] theorem ifInitialised_fault {b : Bool} {f g : Fault} {t : State} :
    ifInitialised b f t = .fault g ↔ b = false ∧ f = g := by
  cases b <;> simp [ifInitialised]

@[simp] theorem ifInitialised_refused {b : Bool} {f : Fault} {t : State} {r : Refusal} :
    ifInitialised b f t ≠ .refused r := by
  cases b <;> simp [ifInitialised]

/-- Two operations answer a next state exactly where the first does and the second does from there. -/
@[simp] theorem andThen_next {o : Answer} {k : State → Answer} {t : State} :
    andThen o k = .next t ↔ ∃ u, o = .next u ∧ k u = .next t := by
  cases o <;> simp [andThen]

@[simp] theorem andThen_fault {o : Answer} {k : State → Answer} {f : Fault} :
    andThen o k = .fault f ↔ o = .fault f ∨ ∃ u, o = .next u ∧ k u = .fault f := by
  cases o <;> simp [andThen]

@[simp] theorem andThen_refused {o : Answer} {k : State → Answer} {r : Refusal} :
    andThen o k = .refused r ↔ o = .refused r ∨ ∃ u, o = .next u ∧ k u = .refused r := by
  cases o <;> simp [andThen]

/-- Everything an operation of the encoder channel can answer. -/
theorem exec_encoder_cases {i : Instr} (h : i.fits .encoder = true) (hr : i ≠ .rst) (s : State) :
    (∃ c, exec i s = .next (s.setEnc c) ∧ (s.enc.initialised = true → c.initialised = true)) ∨
      (exec i s = .fault .uninitialisedE ∧ s.enc.initialised = false ∧ ∃ x, i = .enc x) := by
  cases i with
  | rst => exact absurd rfl hr
  | lde p n => exact .inl ⟨_, rfl, fun _ => rfl⟩
  | enop => exact .inl ⟨_, rfl, fun h => h⟩
  | enc x =>
    obtain ⟨hb, he⟩ | ⟨hb, he⟩ := ifInitialised_cases s.enc.initialised .uninitialisedE
      (s.setEnc (s.enc.emit (update rom (encodeCode rom x s.enc.reg) s.enc.reg) (encodeCode rom x s.enc.reg)))
    · exact .inl ⟨_, he, fun h => h⟩
    · exact .inr ⟨he, hb, x, rfl⟩
  | ldd _ _ => cases h
  | dec _ => cases h
  | dnop => cases h

/-- Everything an operation of the decoder channel can answer. -/
theorem exec_decoder_cases {i : Instr} (h : i.fits .decoder = true) (hr : i ≠ .rst) (s : State) :
    (∃ c, exec i s = .next (s.setDec c) ∧ (s.dec.initialised = true → c.initialised = true)) ∨
      (exec i s = .fault .uninitialisedD ∧ s.dec.initialised = false ∧ ∃ c, i = .dec c) := by
  cases i with
  | rst => exact absurd rfl hr
  | ldd p n => exact .inl ⟨_, rfl, fun _ => rfl⟩
  | dnop => exact .inl ⟨_, rfl, fun h => h⟩
  | dec c =>
    obtain ⟨hb, he⟩ | ⟨hb, he⟩ := ifInitialised_cases s.dec.initialised .uninitialisedD
      (s.setDec (s.dec.emit (update rom c s.dec.reg) (update rom c s.dec.reg).pred))
    · exact .inl ⟨_, he, fun h => h⟩
    · exact .inr ⟨he, hb, c, rfl⟩
  | lde _ _ => cases h
  | enc _ => cases h
  | enop => cases h

/-- A pair whose encoder side is not RST runs its two operations. -/
theorem runLine_of_ne {l : Line} (h : l.e ≠ .rst) (s : State) : runLine l s = andThen (exec l.e s) (exec l.d) := by
  obtain ⟨e, d⟩ := l
  cases e <;> first | rfl | exact absurd rfl h

/-- A pair whose encoder side is RST runs RST. -/
theorem runLine_rst (d : Instr) (s : State) : runLine ⟨.rst, d⟩ s = exec .rst s := rfl

/-- Everything a step can do: RST; or the encoder channel's next contents and then the decoder channel's, each from its own
operation; or one of the two model faults. -/
theorem step_cases (s : State) :
    (s.pins.rst = true ∧ step s = .next ((s.advance.setEnc .afterReset).setDec .afterReset)) ∨
    (s.pins.rst = false ∧ ∃ c d, step s = .next ((s.advance.setEnc c).setDec d) ∧
      exec (decodeEcmd s.pins.ecmd) s.advance = .next (s.advance.setEnc c) ∧
      exec (decodeDcmd s.pins.dcmd) (s.advance.setEnc c) = .next ((s.advance.setEnc c).setDec d)) ∨
    (s.pins.rst = false ∧ step s = .fault .uninitialisedE ∧ s.enc.initialised = false ∧ ∃ x, decodeEcmd s.pins.ecmd = .enc x) ∨
    (s.pins.rst = false ∧ step s = .fault .uninitialisedD ∧ s.dec.initialised = false ∧ (∃ k, decodeDcmd s.pins.dcmd = .dec k) ∧
      ∃ c, exec (decodeEcmd s.pins.ecmd) s.advance = .next (s.advance.setEnc c)) := by
  have hstep : step s = runLine (decodeLine s.pins) s.advance := rfl
  cases hr : s.pins.rst with
  | true =>
    left
    have he : (decodeLine s.pins).e = .rst := (decode_ecmd_eq_rst s.pins).2 hr
    refine ⟨rfl, ?_⟩
    rw [hstep, show decodeLine s.pins = ⟨.rst, (decodeLine s.pins).d⟩ by rw [← he], runLine_rst]
    rfl
  | false =>
    right
    have he : decodeEcmd s.pins.ecmd ≠ .rst := fun h => by simp [(decode_ecmd_eq_rst s.pins).1 h] at hr
    have hd : decodeDcmd s.pins.dcmd ≠ .rst := fun h => by simp [(decode_dcmd_eq_rst s.pins).1 h] at hr
    rw [hstep, runLine_of_ne he]
    simp only [decodeLine]
    obtain ⟨c, hc, -⟩ | ⟨hf, hi, hx⟩ := exec_encoder_cases (decodeEcmd_fits _) he s.advance
    · obtain ⟨d, hd', -⟩ | ⟨hf, hi, hx⟩ := exec_decoder_cases (decodeDcmd_fits _) hd (s.advance.setEnc c)
      · exact .inl ⟨trivial, c, d, by rw [hc]; exact hd', hc, hd'⟩
      · exact .inr (.inr ⟨trivial, by rw [hc]; exact hf, hi, hx, c, hc⟩)
    · exact .inr (.inl ⟨trivial, by rw [hf]; rfl, hi, hx⟩)

end Sys2Proof.Machine
end

