-- ==== Sys2Proof/Laws/PerInstr.lean ====
section
/-! SUPPORT. Statements made once per operation, as syntax: its encoding lies in its own row of spec/opcode_table.json. -/

namespace Sys2Proof.Laws.OwnRow

/-- On each channel the operation fits, the bundle that spells it lies in the table's row of its own mnemonic. -/
def Statement (i : Instr) : Prop :=
  ∀ ch, i.fits ch = true → ∃ row ∈ opcodeTable, row.mnemonic = i.mnemonic ∧ row.onChannel ch = true ∧ row.holds (encode i) = true

theorem rst : Statement .rst := fun ch _ =>
  ⟨⟨"RST", none, 0x20000000000, 0x20000000000⟩, by simp [opcodeTable], rfl, rfl, by decide⟩

theorem lde (p : Sample) (n : StepIndex) : Statement (.lde p n) := fun ch h =>
  ⟨⟨"LDE", some .encoder, 0x30000000000, 0x10000000000⟩, by simp [opcodeTable], rfl, (by cases ch <;> first | rfl | cases h),
    by rw [Row.holds, encode, mask_load, pattern_load, pack_and_requests]; decide⟩

theorem enc (x : Sample) : Statement (.enc x) := fun ch h =>
  ⟨⟨"ENC", some .encoder, 0x38000000000, 0x08000000000⟩, by simp [opcodeTable], rfl, (by cases ch <;> first | rfl | cases h),
    by rw [Row.holds, encode, mask_valid, pattern_valid, pack_and_requests]; decide⟩

theorem enop : Statement .enop := fun ch h =>
  ⟨⟨"ENOP", some .encoder, 0x38000000000, 0x00000000000⟩, by simp [opcodeTable], rfl, (by cases ch <;> first | rfl | cases h),
    by decide⟩

theorem ldd (p : Sample) (n : StepIndex) : Statement (.ldd p n) := fun ch h =>
  ⟨⟨"LDD", some .decoder, 0x30000000000, 0x10000000000⟩, by simp [opcodeTable], rfl, (by cases ch <;> first | rfl | cases h),
    by rw [Row.holds, encode, mask_load, pattern_load, pack_and_requests]; decide⟩

theorem dec (c : Code) : Statement (.dec c) := fun ch h =>
  ⟨⟨"DEC", some .decoder, 0x38000000000, 0x08000000000⟩, by simp [opcodeTable], rfl, (by cases ch <;> first | rfl | cases h),
    by rw [Row.holds, encode, mask_valid, pattern_valid, pack_and_requests]; decide⟩

theorem dnop : Statement .dnop := fun ch h =>
  ⟨⟨"DNOP", some .decoder, 0x38000000000, 0x00000000000⟩, by simp [opcodeTable], rfl, (by cases ch <;> first | rfl | cases h),
    by decide⟩

end Sys2Proof.Laws.OwnRow
end

