-- ==== Sys2Proof/Laws/Run.lean ====
section
/-! SUPPORT. Runs of the machine, one edge at a time. -/

namespace Sys2Proof.Machine

/-- A run that begins with a step to a next state goes on from there. -/
theorem run_succ_of_next {s t : State} (n : Nat) (h : step s = .next t) :
    Host.Core.run Sys2Proof.core (n + 1) s = Host.Core.run Sys2Proof.core n t := by
  simp only [Host.Core.run, show Sys2Proof.core.step s = .next t from h]

/-- A run that gets past its first step took it to a next state. -/
theorem run_succ_next {s t : State} {n : Nat} (h : Host.Core.run Sys2Proof.core (n + 1) s = .next t) :
    ∃ u, step s = .next u ∧ Host.Core.run Sys2Proof.core n u = .next t := by
  simp only [Host.Core.run] at h
  cases hs : step s with
  | next u => exact ⟨u, rfl, by rwa [show Sys2Proof.core.step s = .next u from hs] at h⟩
  | fault f => rw [show Sys2Proof.core.step s = .fault f from hs] at h; cases h
  | refused r => rw [show Sys2Proof.core.step s = .refused r from hs] at h; cases h

/-- Two runs in a row are one. -/
theorem run_add {m : Nat} {s t : State} (n : Nat) (h : Host.Core.run Sys2Proof.core m s = .next t) :
    Host.Core.run Sys2Proof.core (m + n) s = Host.Core.run Sys2Proof.core n t := by
  induction m generalizing s with
  | zero => cases h; rw [Nat.zero_add]
  | succ m ih =>
    obtain ⟨u, hu, h'⟩ := run_succ_next h
    rw [Nat.succ_add, run_succ_of_next _ hu, ih h']

/-- The last state of a fold with one more state at its front. -/
theorem finalState_cons (r r' : StateRegister) (rs : List StateRegister) : finalState r (r' :: rs) = finalState r' rs := by
  cases rs <;> rfl

end Sys2Proof.Machine
end

