-- ==== Sys2Proof/Laws/Trace.lean ====
section
/-! SUPPORT. The numbers of the trace notation: which pass the checks of WellFormed.lean, and the words they are laid out as. -/

namespace Sys2Proof.Machine

/-- A number that spells a sample passes the check and is laid out as that sample. -/
theorem literal_of_spellsSample {l : Literal} {x : Sample} (h : SpellsSample l x) : l.isSample = true ∧ literalBits 16 l = x := by
  cases l with
  | decimal v =>
    obtain ⟨⟨h₁, h₂⟩, rfl⟩ := h
    exact ⟨by simp only [Literal.isSample, Bool.and_eq_true, decide_eq_true_eq]; exact ⟨h₁, h₂⟩, BitVec.ofInt_toInt⟩
  | hex k =>
    obtain ⟨h₁, rfl⟩ := h
    exact ⟨decide_eq_true h₁, by rw [literalBits, BitVec.ofNat_toNat, BitVec.setWidth_eq]⟩

/-- A number that spells an index passes the check and is laid out as that index. -/
theorem literal_of_spellsIndex {l : Literal} {i : StepIndex} (h : SpellsIndex l i) : l.isIndex = true ∧ literalBits 7 l = i := by
  cases l with
  | decimal v =>
    obtain ⟨⟨h₁, h₂⟩, rfl⟩ := h
    exact ⟨by simp only [Literal.isIndex, Bool.and_eq_true, decide_eq_true_eq]; exact ⟨h₁, h₂⟩, by simp [literalBits]⟩
  | hex k =>
    obtain ⟨h₁, rfl⟩ := h
    exact ⟨decide_eq_true h₁, by rw [literalBits, BitVec.ofNat_toNat, BitVec.setWidth_eq]⟩

/-- A number that spells a code passes the check and is laid out as that code. -/
theorem literal_of_spellsCode {l : Literal} {c : Code} (h : SpellsCode l c) : l.isCode = true ∧ literalBits 4 l = c := by
  cases l with
  | decimal v =>
    obtain ⟨⟨h₁, h₂⟩, rfl⟩ := h
    exact ⟨by simp only [Literal.isCode, Bool.and_eq_true, decide_eq_true_eq]; exact ⟨h₁, h₂⟩, by simp [literalBits]⟩
  | hex k =>
    obtain ⟨h₁, rfl⟩ := h
    exact ⟨decide_eq_true h₁, by rw [literalBits, BitVec.ofNat_toNat, BitVec.setWidth_eq]⟩

/-- A number out of the range of a sample fails the check. -/
theorem isSample_of_outOfRange {l : Literal} (h : OutOfRange 16 (-32768) 32767 l) : l.isSample = false := by
  cases l with
  | decimal v => simp only [OutOfRange] at h; simp only [Literal.isSample, Bool.and_eq_false_iff, decide_eq_false_iff_not]; omega
  | hex k => exact decide_eq_false (Nat.not_lt.2 h)

/-- A number out of the range of an index fails the check. -/
theorem isIndex_of_outOfRange {l : Literal} (h : OutOfRange 7 0 127 l) : l.isIndex = false := by
  cases l with
  | decimal v => simp only [OutOfRange] at h; simp only [Literal.isIndex, Bool.and_eq_false_iff, decide_eq_false_iff_not]; omega
  | hex k => exact decide_eq_false (Nat.not_lt.2 h)

/-- A number out of the range of a code fails the check. -/
theorem isCode_of_outOfRange {l : Literal} (h : OutOfRange 4 0 15 l) : l.isCode = false := by
  cases l with
  | decimal v => simp only [OutOfRange] at h; simp only [Literal.isCode, Bool.and_eq_false_iff, decide_eq_false_iff_not]; omega
  | hex k => exact decide_eq_false (Nat.not_lt.2 h)

/-- A well-formed line spells its two bundles. -/
theorem traceInputs_of_wf {l : TraceLine} (h : l.wf = true) :
    traceInputs l = some (Inputs.ofBundles (traceBundles l).1 (traceBundles l).2) := if_pos h

/-- A line with an ill-formed encoder side is refused, alone or beside any decoder operation. -/
theorem traceInputs_of_encOp {e : EncOp} (h : e.wf = false) :
    traceInputs (.encOnly e) = none ∧ ∀ d, traceInputs (.both e d) = none := by
  simp [traceInputs, TraceLine.wf, h]

/-- A line with an ill-formed decoder side is refused, alone or beside any encoder operation. -/
theorem traceInputs_of_decOp {d : DecOp} (h : d.wf = false) :
    traceInputs (.decOnly d) = none ∧ ∀ e, traceInputs (.both e d) = none := by
  simp [traceInputs, TraceLine.wf, h]

end Sys2Proof.Machine
end

