-- ==== Sys2Proof/Tests/Slice0.lean ====
section
/-! SUPPORT. Small tests on single steps, with expected results from the spec's own tables (95_test_vectors.md, 30_encoding.md), and the
witnesses of the statements' hypotheses. -/

namespace Sys2Proof.Tests

open Sys2Proof.Machine

/-- The operation completes, and its next state passes the check. -/
def after (o : Answer) (check : State → Bool) : Bool :=
  match o with
  | .next t => check t
  | .fault _ => false
  | .refused _ => false

/-- A ready state with these register contents, and old outputs 7 and 11 with both valid bits up. -/
def ready (er dr : StateRegister) : State := ⟨⟨er, true, 7, true⟩, ⟨dr, true, 11, true⟩, [], 0⟩

/-- A state in which neither channel has been initialised. -/
def cold : State := ⟨⟨⟨5, 3⟩, false, 7, true⟩, ⟨⟨6, 4⟩, false, 11, true⟩, [], 0⟩

/-! ### WellFormed: an ill-formed term for each check, refused -/

theorem test_line_encoder_side : Line.wf ⟨.dec 3, .dnop⟩ = false := by decide
theorem test_line_decoder_side : Line.wf ⟨.enop, .enc 3⟩ = false := by decide
theorem test_line_one_reset : Line.wf ⟨.rst, .dnop⟩ = false := by decide
theorem test_line_ok : Line.wf ⟨.enc 3, .ldd 1 2⟩ = true := by decide
theorem test_sample_range : TraceLine.wf (.encOnly (.enc (.decimal 32768))) = false := by decide
theorem test_index_range : TraceLine.wf (.decOnly (.ldd (.decimal 0) (.decimal 128))) = false := by decide
/-- 93 U1: a code above 15 is refused. -/
theorem test_code_range : traceInputs (.decOnly (.dec (.decimal 16))) = none := by decide
theorem test_raw_range : TraceLine.wf (.encOnly (.raw (2 ^ 42))) = false := by decide
theorem test_raw_reset_disagrees : TraceLine.wf (.both (.raw 0x20000000000) (.raw 0)) = false := by decide

/-! ### Decode: words written out from 30_encoding.md and 95_test_vectors.md section 6 -/

theorem test_decode_rst : decodeEcmd 0x20000000000 = .rst ∧ decodeDcmd 0x20000000000 = .rst := by decide
theorem test_decode_rst_wins : decodeEcmd 0x388000003E8 = .rst := by decide
theorem test_decode_lde : decodeEcmd 0x110FFED0000 = .lde (-19) 16 := by decide
theorem test_decode_lde_wins : decodeEcmd 0x188000003E8 = .lde 0 8 := by decide
theorem test_decode_enc : decodeEcmd 0x0800000FE0C = .enc (-500) := by decide
theorem test_decode_enop : decodeEcmd 0x07FFFFFFFFF = .enop := by decide
theorem test_decode_ldd : decodeDcmd 0x108000B0000 = .ldd 11 8 := by decide
theorem test_decode_dec : decodeDcmd 0x0800000000F = .dec 15 := by decide
/-- DCMD[15:4] has no wire (R64, R68). -/
theorem test_decode_dec_ignores : decodeDcmd 0x0800000FFF7 = .dec 7 := by decide
theorem test_decode_dnop : decodeDcmd 0x00000000000 = .dnop := by decide
/-- R71: `ENC 1000` and `LDD 11, 8`. -/
theorem test_encode : encode (.enc 1000) = 0x080000003E8 ∧ encode (.ldd 11 8) = 0x108000B0000 := by decide
theorem test_table_word : decodeTableWord 48 0x080000003E8 = some (.enc 1000) ∧ decodeTableWord 48 (2 ^ 42) = none := by decide

/-! ### Datapath: 95_test_vectors.md sections 2 and 3 -/

theorem test_dequantize : dequantize 7 7 = 11 ∧ dequantize 5 16 = 22 ∧ dequantize 6 32767 = 53245 := by decide
theorem test_quantize : quantize 15 16 = ⟨false, true, true⟩ ∧ quantize 16 16 = ⟨true, false, false⟩ ∧
    quantize 3 7 = ⟨false, true, false⟩ := by decide

/-! ### Operations: one step each -/

/-- W1. -/
theorem test_enc_w1 : after (exec (.enc 1000) State.reset)
    (fun t => t.enc == ⟨⟨11, 8⟩, true, 7, true⟩ && t.dec == State.reset.dec) = true := by decide
/-- Section 4: sample -32768, prediction -32000, index 88: code 8, the prediction clamps low. -/
theorem test_enc_clamps : after (exec (.enc (-32768)) (ready ⟨-32000, 88⟩ ⟨0, 0⟩))
    (fun t => t.enc == ⟨⟨-32768, 87⟩, true, 8, true⟩) = true := by decide
/-- W3's arithmetic on the decoder (R122's worked example). -/
theorem test_dec_w3 : after (exec (.dec 15) (ready ⟨0, 0⟩ ⟨11, 8⟩))
    (fun t => t.dec == ⟨⟨-19, 16⟩, true, -19, true⟩ && t.enc == ⟨⟨0, 0⟩, true, 7, true⟩) = true := by decide
/-- Section 5: code 7 from prediction 32767 and index 88: both clamps high. -/
theorem test_dec_clamps : after (exec (.dec 7) (ready ⟨0, 0⟩ ⟨32767, 88⟩))
    (fun t => t.dec == ⟨⟨32767, 88⟩, true, 32767, true⟩) = true := by decide
/-- R121's worked example: the index 120 saturates, `E.out_code` holds. -/
theorem test_lde_saturates : after (exec (.lde 100 120) cold)
    (fun t => t.enc == ⟨⟨100, 88⟩, true, 7, false⟩) = true := by decide
/-- R122: `D.out_sample` holds. -/
theorem test_ldd : after (exec (.ldd (-32768) 88) cold)
    (fun t => t.dec == ⟨⟨-32768, 88⟩, true, 11, false⟩) = true := by decide
/-- R101's worked example. -/
theorem test_enop : after (exec .enop (ready ⟨11, 8⟩ ⟨0, 0⟩)) (fun t => t.enc == ⟨⟨11, 8⟩, true, 7, false⟩) = true := by decide
/-- R111's worked example. -/
theorem test_dnop : after (exec .dnop (ready ⟨0, 0⟩ ⟨11, 8⟩)) (fun t => t.dec == ⟨⟨11, 8⟩, true, 11, false⟩) = true := by decide
/-- R120's worked example, from a state never initialised. -/
theorem test_rst : after (exec .rst cold) (fun t => t == State.reset) = true := by decide
/-- 95_test_vectors.md section 7: the model faults. -/
theorem test_uninitialised : exec (.enc 5) cold = .fault .uninitialisedE ∧ exec (.dec 3) cold = .fault .uninitialisedD := ⟨rfl, rfl⟩

/-! ### Steps -/

/-- P2, cycle 2: both channels work at one edge. -/
theorem test_step_both : after (step ((ready ⟨11, 8⟩ ⟨0, 0⟩).drive (Inputs.ofBundles 0x0800000FE0C 0x08000000007)))
    (fun t => t.enc == ⟨⟨-19, 16⟩, true, 15, true⟩ && t.dec == ⟨⟨11, 8⟩, true, 11, true⟩) = true := by decide
/-- An opcode-table word is the first thing to run after reset. -/
theorem test_fetch_word : after (step (State.reset.withFetchWord 48 0x080000003E8))
    (fun t => t.enc.outCode == 7 && t.enc.outValid && !t.dec.outValid && t.inputs == []) = true := by decide
/-- P4, cycle 3: the load wins over the encode request in the same cycle. -/
theorem test_step_priority : after (step ((ready ⟨11, 8⟩ ⟨0, 0⟩).drive (Inputs.ofBundles 0x188000003E8 0)))
    (fun t => t.enc == ⟨⟨0, 8⟩, true, 7, false⟩) = true := by decide

/-! ### Witnesses: each statement's hypotheses can be met together, for each clause at a boundary where it has a range -/

theorem witness_TablesMeetConstraints : ((87 : StepIndex).toNat < 88) ∧ (32767 ∈ rom.step) := by decide
theorem witness_TableReadsStayInTable : (88 : StepIndex).toNat ≤ 88 := by decide
theorem witness_SignAndMagnitude : diff 0x8000 0x7FFF < 0 ∧ 0 ≤ diff 0x7FFF 0x8000 ∧ diff 5 5 = 0 := by decide
theorem witness_QuantizeIsGreedy : (483 : Nat) = (if 511 ≥ 28 then 511 - 28 else 511) ∧
    (469 : Nat) = (if 483 ≥ 28 / 2 then 483 - 28 / 2 else 483) := by decide
theorem witness_EncodeCodeAssembles : (⟨true, true, true⟩ : Magnitude) = quantize (mag (diff 1000 0)) (rom.stepAt 0) := by decide
theorem witness_CodeSignBit : (-500 : Sample).toInt < (11 : Sample).toInt := by decide
theorem witness_ZeroDifferenceIsCodeZero :
    (⟨32767, 88⟩ : StateRegister).legal = true ∧ (⟨0, 0⟩ : StateRegister).legal = true := by decide
theorem witness_LargestDifferencesSaturate : (88 : StepIndex).toNat ≤ 88 ∧ (0 : StepIndex).toNat ≤ 88 := by decide
theorem witness_DequantizeSums : (32767 : Nat) ≤ 32767 := by decide
theorem witness_PredictorSaturates : (61436 : Nat) ≤ 61436 := by decide
theorem witness_IndexSaturates : 0 < rom.indexAt 15 ∧ rom.indexAt 11 < 0 ∧ (88 : StepIndex).toNat ≤ 88 := by decide
theorem witness_IntermediateRanges : (⟨-32768, 88⟩ : StateRegister).legal = true := by decide
theorem witness_DecodeAgreesWithTable : (⟨"LDD", some .decoder, 0x30000000000, 0x10000000000⟩ : Row) ∈ opcodeTable ∧
    (⟨"LDD", some .decoder, 0x30000000000, 0x10000000000⟩ : Row).onChannel .decoder = true := by decide
theorem witness_IgnoredFields_rst : BitVec.getLsbD (0x20000000000 : Bundle) 41 = true ∧
    BitVec.getLsbD (0x388000003E8 : Bundle) 41 = true := by decide
theorem witness_IgnoredFields_load :
    let w : Bundle := 0x108000B0000; let u : Bundle := 0x188000BFFFF
    w.getLsbD 41 = false ∧ u.getLsbD 41 = false ∧ w.getLsbD 40 = true ∧ u.getLsbD 40 = true ∧
    w.extractLsb' 32 7 = u.extractLsb' 32 7 ∧ w.extractLsb' 16 16 = u.extractLsb' 16 16 := by decide
theorem witness_IgnoredFields_valid :
    let w : Bundle := 0x080000003E8; let u : Bundle := 0x0FFFFFF03E8
    w.getLsbD 41 = false ∧ u.getLsbD 41 = false ∧ w.getLsbD 40 = false ∧ u.getLsbD 40 = false ∧
    w.getLsbD 39 = true ∧ u.getLsbD 39 = true ∧ w.extractLsb' 0 16 = u.extractLsb' 0 16 ∧
    w.extractLsb' 0 4 = u.extractLsb' 0 4 := by decide
theorem witness_IgnoredFields_idle :
    let w : Bundle := 0x00000000000; let u : Bundle := 0x07FFFFFFFFF
    w.getLsbD 41 = false ∧ u.getLsbD 41 = false ∧ w.getLsbD 40 = false ∧ u.getLsbD 40 = false ∧
    w.getLsbD 39 = false ∧ u.getLsbD 39 = false := by decide
theorem witness_IgnoredFields_noWire :
    let w : Bundle := 0x08000000007; let u : Bundle := 0x0800000FFF7
    w.extractLsb' 0 4 = u.extractLsb' 0 4 ∧ w.extractLsb' 16 26 = u.extractLsb' 16 26 := by decide
theorem witness_IgnoredFields_step : decodeLine (Inputs.ofBundles 0x07FFFFFFFFF 0) = decodeLine (Inputs.ofBundles 0 0) := by decide
theorem witness_DecodeOfEncode : (Instr.lde (-1) 127).fits .encoder = true ∧ (Instr.dec 15).fits .decoder = true ∧
    Instr.rst.fits .encoder = true ∧ Instr.rst.fits .decoder = true := by decide
theorem witness_LineRoundTrip : Line.wf ⟨.enc (-32768), .ldd (-1) 127⟩ = true ∧ Line.wf ⟨.rst, .rst⟩ = true := by decide
theorem witness_TraceNumbersSpellOperands :
    SpellsSample (.decimal (-32768)) 0x8000 ∧ SpellsSample (.hex 0xFFFF) (-1) ∧ SpellsIndex (.decimal 127) 127 ∧
    SpellsIndex (.hex 0x7F) 127 ∧ SpellsCode (.decimal 15) 15 ∧ SpellsCode (.hex 0xF) 15 := by
  refine ⟨⟨?_, ?_⟩, ⟨?_, ?_⟩, ⟨?_, ?_⟩, ⟨?_, ?_⟩, ⟨?_, ?_⟩, ⟨?_, ?_⟩⟩ <;> decide
/-- The first number past each end, in both ways of writing. -/
theorem witness_TraceNumbers_refused :
    OutOfRange 16 (-32768) 32767 (.decimal 32768) ∧ OutOfRange 16 (-32768) 32767 (.decimal (-32769)) ∧
    OutOfRange 16 (-32768) 32767 (.hex 0x10000) ∧ OutOfRange 7 0 127 (.decimal 128) ∧ OutOfRange 7 0 127 (.hex 0x80) ∧
    OutOfRange 4 0 15 (.decimal 16) ∧ OutOfRange 4 0 15 (.hex 0x10) ∧ 2 ^ 42 ≤ 0x40000000000 ∧ 0x3FFFFFFFFFF < 2 ^ 42 :=
  ⟨.inr (by decide), .inl (by decide), by simp [OutOfRange], .inr (by decide), by simp [OutOfRange], .inr (by decide),
    by simp [OutOfRange], by decide, by decide⟩
theorem witness_RstResetsBothChannels : BitVec.getLsbD (0x388000003E8 : Bundle) 41 = true := by decide
/-- For LdeLoadsEncoder and LddLoadsDecoder: a load with index 127. -/
theorem witness_loads : BitVec.getLsbD (0x17F80000000 : Bundle) 41 = false ∧ BitVec.getLsbD (0x17F80000000 : Bundle) 40 = true := by decide
theorem witness_EncEncodesSample :
    (ready ⟨11, 8⟩ ⟨0, 0⟩).enc.initialised = true ∧ (15 : Code) = encodeCode rom (-500) (ready ⟨11, 8⟩ ⟨0, 0⟩).enc.reg ∧
    cold.enc.initialised = false ∧ BitVec.getLsbD (0x08000000005 : Bundle) 41 = false ∧
    BitVec.getLsbD (0x08000000005 : Bundle) 40 = false ∧ BitVec.getLsbD (0x08000000005 : Bundle) 39 = true := by decide
/-- The bundle clause is met by the bundle of the witness above. -/
theorem witness_DecDecodesCode :
    (ready ⟨0, 0⟩ ⟨0, 88⟩).dec.initialised = true ∧ (⟨32767, 88⟩ : StateRegister) = update rom 7 (ready ⟨0, 0⟩ ⟨0, 88⟩).dec.reg ∧
    cold.dec.initialised = false := by decide
/-- For EnopClearsValid and DnopClearsValid: every ignored bit 1, from an uninitialised state. -/
theorem witness_idle : BitVec.getLsbD (0x07FFFFFFFFF : Bundle) 41 = false ∧ BitVec.getLsbD (0x07FFFFFFFFF : Bundle) 40 = false ∧
    BitVec.getLsbD (0x07FFFFFFFFF : Bundle) 39 = false ∧ after (exec .enop cold) (fun _ => true) = true ∧
    after (exec .dnop cold) (fun _ => true) = true := by decide
theorem witness_EncoderOperationsFrame : ∃ t, (Instr.enc 1000).fits .encoder = true ∧ Instr.enc 1000 ≠ .rst ∧
    exec (.enc 1000) State.reset = .next t := ⟨_, rfl, by decide, rfl⟩
theorem witness_DecoderOperationsFrame : ∃ t, (Instr.dec 7).fits .decoder = true ∧ Instr.dec 7 ≠ .rst ∧
    exec (.dec 7) State.reset = .next t := ⟨_, rfl, by decide, rfl⟩

/-- A state with both channels at the boundary index 88 meets the invariant and is ready. -/
theorem ready_inv : (ready ⟨165, 88⟩ ⟨11, 88⟩).Inv := ⟨fun _ => rfl, fun _ => rfl, fun _ _ => rfl⟩
theorem ready_ready : (ready ⟨165, 88⟩ ⟨11, 88⟩).Ready := ⟨rfl, rfl⟩

theorem witness_SaveAndRestoreIsExact : (ready ⟨165, 88⟩ ⟨11, 88⟩).Inv ∧ (ready ⟨165, 88⟩ ⟨11, 88⟩).enc.initialised = true ∧
    (ready ⟨165, 88⟩ ⟨11, 88⟩).dec.initialised = true := ⟨ready_inv, rfl, rfl⟩
theorem witness_StepRunsDecodedOperations :
    (State.reset.drive (Inputs.ofBundles 0x20000000000 0x20000000000)).pins.rst = true ∧
    (State.reset.drive (Inputs.ofBundles 0x080000003E8 0)).pins.rst = false ∧
    (State.reset.drive default).inputs = default :: [] := by decide
theorem witness_FetchWordIsRun : decodeTableWord 48 0x080000003E8 = some (.enc 1000) ∧ Instr.enc 1000 ≠ .rst ∧
    decodeTableWord 48 0x20000000000 = some .rst := by decide
theorem witness_ResetEdgeSuffices : (cold.drive (Inputs.ofBundles 0x388000003E8 0x20000000000)).pins.rst = true := by decide
theorem witness_StepFaultsExactlyWhen :
    (let s := cold.drive (Inputs.ofBundles 0x08000000005 0)
     (s.pins.rst = false ∧ s.pins.encLoad = false ∧ s.pins.encInValid = true) ∧ s.enc.initialised = false) ∧
    (let s := cold.drive (Inputs.ofBundles 0 0x08000000003)
     (s.pins.rst = false ∧ s.pins.decLoad = false ∧ s.pins.decInValid = true) ∧ s.dec.initialised = false ∧
      s.pins.encInValid = false) := by decide
/-- For ReadyStepCompletes and ReadyRunNeverStops. -/
theorem witness_ReadyStepCompletes : (ready ⟨165, 88⟩ ⟨11, 88⟩).Ready ∧ State.reset.Ready := ⟨ready_ready, ⟨rfl, rfl⟩⟩
theorem witness_StepKeepsInvariant : ∃ s t : State, s.Inv ∧ step s = .next t :=
  ⟨(ready ⟨165, 88⟩ ⟨11, 88⟩).drive (Inputs.ofBundles 0x080000007D0 0x08000000007), _,
    ⟨fun _ => rfl, fun _ => rfl, fun _ _ => rfl⟩, rfl⟩
/-- For ValidBitsFollowInputs, OutputsHoldBetweenResults and DecodedSampleIsPrediction: an edge that leaves both channels idle, one that
decodes, and one that loads, all without `rst`. -/
theorem witness_edges : ∃ t u v : State,
    step ((ready ⟨11, 8⟩ ⟨11, 8⟩).drive (Inputs.ofBundles 0 0)) = .next t ∧
    step ((ready ⟨11, 8⟩ ⟨11, 8⟩).drive (Inputs.ofBundles 0 0x08000000007)) = .next u ∧
    step ((ready ⟨11, 8⟩ ⟨11, 8⟩).drive (Inputs.ofBundles 0x110FFED0000 0x108000B0000)) = .next v ∧
    (Inputs.ofBundles 0 0).rst = false ∧ (Inputs.ofBundles 0 0x08000000007).rst = false ∧
    (Inputs.ofBundles 0 0x08000000007).decLoad = false ∧ (Inputs.ofBundles 0 0x08000000007).decInValid = true ∧
    (Inputs.ofBundles 0x110FFED0000 0x108000B0000).rst = false ∧
    (Inputs.ofBundles 0x110FFED0000 0x108000B0000).encLoad = true := ⟨_, _, _, rfl, rfl, rfl, by decide⟩
theorem witness_LowerRequestsAreDropped : (Inputs.ofBundles 0x188000003E8 0x18000000007).encLoad = true ∧
    (Inputs.ofBundles 0x188000003E8 0x18000000007).decLoad = true ∧ (Inputs.ofBundles 0x388000003E8 0).rst = true := by decide
theorem witness_ChannelOrderIsUnseen : (Instr.enc 5).fits .encoder = true ∧ (Instr.dec 3).fits .decoder = true ∧
    Instr.enc 5 ≠ .rst ∧ Instr.dec 3 ≠ .rst ∧
    after (andThen (exec (.enc 5) State.reset) (exec (.dec 3))) (fun _ => true) = true := by decide
theorem witness_ChannelsAreIsolated : ∃ s u t v : State, step s = .next t ∧ step u = .next v ∧ s.enc = u.enc ∧
    s.pins.ecmd = u.pins.ecmd ∧ s.dec ≠ u.dec ∧ s.pins.dcmd ≠ u.pins.dcmd :=
  ⟨(ready ⟨11, 8⟩ ⟨0, 0⟩).drive (Inputs.ofBundles 0x0800000FE0C 0), (ready ⟨11, 8⟩ ⟨5, 5⟩).drive (Inputs.ofBundles 0x0800000FE0C 0x08000000007),
    _, _, rfl, rfl, rfl, by decide, by decide, by decide⟩
theorem witness_ChannelsAreIsolated_decoder : ∃ s u t v : State, step s = .next t ∧ step u = .next v ∧ s.dec = u.dec ∧
    s.pins.dcmd = u.pins.dcmd ∧ s.enc ≠ u.enc ∧ s.pins.ecmd ≠ u.pins.ecmd :=
  ⟨(ready ⟨11, 8⟩ ⟨0, 0⟩).drive (Inputs.ofBundles 0 0x08000000007), (ready ⟨5, 5⟩ ⟨0, 0⟩).drive (Inputs.ofBundles 0x0800000FE0C 0x08000000007),
    _, _, rfl, rfl, rfl, by decide, by decide, by decide⟩
theorem witness_DecMirrorsEnc : (ready ⟨11, 8⟩ ⟨11, 8⟩).Ready ∧ (ready ⟨11, 8⟩ ⟨11, 8⟩).enc.reg = (ready ⟨11, 8⟩ ⟨11, 8⟩).dec.reg :=
  ⟨⟨rfl, rfl⟩, rfl⟩
/-- P2, between cycles 1 and 2: the code 7 on the encoder's port has not been decoded yet. -/
theorem witness_DecoderFollowsOneCycleBehind :
    let s := (ready ⟨11, 8⟩ ⟨0, 0⟩).drive (Inputs.ofBundles 0x0800000FE0C 0x08000000007)
    s.Ready ∧ update rom s.enc.outCode s.dec.reg = s.enc.reg ∧ decodeLine s.pins = ⟨.enc (-500), .dec s.enc.outCode⟩ :=
  ⟨⟨rfl, rfl⟩, by decide, by decide⟩
/-- P1's samples, from a machine never initialised. -/
theorem witness_EncstreamComputesFold :
    ({ cold with inputs := encStream [1000, -500, -500, 0, 2000] ++ [default] } : State).inputs =
      encStream [1000, -500, -500, 0, 2000] ++ [default] := rfl
theorem witness_DecstreamComputesFold :
    ({ cold with inputs := decStream [7, 15, 15, 4, 7] ++ [] } : State).inputs = decStream [7, 15, 15, 4, 7] ++ [] := rfl
theorem witness_RoundTripEndsInStep :
    ({ cold with inputs := encStream [1000, -500] ++ decStream (encodeStream .streamStart [1000, -500]) ++ [] } : State).inputs =
      encStream [1000, -500] ++ decStream (encodeStream .streamStart [1000, -500]) ++ [] := rfl
/-- P1: the codes and the last state of the fold. -/
theorem test_p1_codes : encodeStream .streamStart [1000, -500, -500, 0, 2000] = [7, 15, 15, 4, 7] ∧
    finalState .streamStart (encodeStates .streamStart [1000, -500, -500, 0, 2000]) = ⟨165, 34⟩ := by decide

end Sys2Proof.Tests
end

section
/-! PROOFS. What one edge does to each channel by itself, and the statements about the state (10_state.md) that follow from it. -/

namespace Sys2Proof.Machine

/-! ### One channel's part of an operation -/

/-- The encoder channel after an operation that completes: an operation of the decoder channel leaves it as it was (R20, R55).
`exec_next_eq` ties it to `exec`. -/
def EncChannel.perform (c : EncChannel) (i : Instr) : EncChannel :=
  match i with
  | .rst => .afterReset
  | .lde p n => c.load (.loaded p n)
  | .enc x => c.emit (update rom (encodeCode rom x c.reg) c.reg) (encodeCode rom x c.reg)
  | .enop => c.setValid false
  | .ldd _ _ | .dec _ | .dnop => c

/-- The decoder channel after an operation that completes: an operation of the encoder channel leaves it as it was (R20, R55).
`exec_next_eq` ties it to `exec`. -/
def DecChannel.perform (c : DecChannel) (i : Instr) : DecChannel :=
  match i with
  | .rst => .afterReset
  | .ldd p n => c.load (.loaded p n)
  | .dec k => c.emit (update rom k c.reg) (update rom k c.reg).pred
  | .dnop => c.setValid false
  | .lde _ _ | .enc _ | .enop => c

section perform
variable (e : EncChannel) (d : DecChannel) (p : Sample) (n : StepIndex) (x : Sample) (k : Code)

@[simp] theorem EncChannel.perform_rst : e.perform .rst = .afterReset := rfl
@[simp] theorem EncChannel.perform_lde : e.perform (.lde p n) = e.load (.loaded p n) := rfl
@[simp] theorem EncChannel.perform_enc :
    e.perform (.enc x) = e.emit (update rom (encodeCode rom x e.reg) e.reg) (encodeCode rom x e.reg) := rfl
@[simp] theorem EncChannel.perform_enop : e.perform .enop = e.setValid false := rfl
@[simp] theorem EncChannel.perform_ldd : e.perform (.ldd p n) = e := rfl
@[simp] theorem EncChannel.perform_dec : e.perform (.dec k) = e := rfl
@[simp] theorem EncChannel.perform_dnop : e.perform .dnop = e := rfl

@[simp] theorem DecChannel.perform_rst : d.perform .rst = .afterReset := rfl
@[simp] theorem DecChannel.perform_ldd : d.perform (.ldd p n) = d.load (.loaded p n) := rfl
@[simp] theorem DecChannel.perform_dec : d.perform (.dec k) = d.emit (update rom k d.reg) (update rom k d.reg).pred := rfl
@[simp] theorem DecChannel.perform_dnop : d.perform .dnop = d.setValid false := rfl
@[simp] theorem DecChannel.perform_lde : d.perform (.lde p n) = d := rfl
@[simp] theorem DecChannel.perform_enc : d.perform (.enc x) = d := rfl
@[simp] theorem DecChannel.perform_enop : d.perform .enop = d := rfl

end perform

/-- An operation that completes writes the two channels and nothing else. -/
theorem exec_next_eq {i : Instr} {s t : State} (h : exec i s = .next t) :
    t = (s.setEnc (s.enc.perform i)).setDec (s.dec.perform i) := by
  cases i with
  | rst | lde | enop | ldd | dnop => cases h; rfl
  | enc x => obtain ⟨-, rfl⟩ := ifInitialised_next.mp h; rfl
  | dec k => obtain ⟨-, rfl⟩ := ifInitialised_next.mp h; rfl

/-- A step that completes performs on each channel the operation that channel decodes, and otherwise only takes the edge. -/
theorem step_next_eq {s t : State} (h : step s = .next t) :
    t = (s.advance.setEnc (s.enc.perform (decodeEcmd s.pins.ecmd))).setDec (s.dec.perform (decodeDcmd s.pins.dcmd)) := by
  obtain ⟨hr, hs⟩ | ⟨-, c, d, hs, he, hd⟩ | ⟨-, hs, -⟩ | ⟨-, hs, -⟩ := step_cases s
  · rw [(decode_ecmd_eq_rst _).mpr hr, (decode_dcmd_eq_rst _).mpr hr]
    rw [h] at hs; cases hs; rfl
  · have hc : c = s.enc.perform (decodeEcmd s.pins.ecmd) := congrArg State.enc (exec_next_eq he)
    have hd : d = s.dec.perform (decodeDcmd s.pins.dcmd) := congrArg State.dec (exec_next_eq hd)
    rw [h] at hs; cases hs; rw [hc, hd]
  · rw [h] at hs; cases hs
  · rw [h] at hs; cases hs

/-- The encoder channel after a step depends on the encoder channel and its bundle alone. -/
theorem step_enc {s t : State} (h : step s = .next t) : t.enc = s.enc.perform (decodeEcmd s.pins.ecmd) :=
  congrArg State.enc (step_next_eq h)

/-- The decoder channel after a step depends on the decoder channel and its bundle alone. -/
theorem step_dec {s t : State} (h : step s = .next t) : t.dec = s.dec.perform (decodeDcmd s.pins.dcmd) :=
  congrArg State.dec (step_next_eq h)

/-! ### Legal indices (R22) and the shown sample (R29) -/

theorem StateRegister.legal_iff {r : StateRegister} : r.legal = true ↔ r.idx.toNat ≤ 88 := decide_eq_true_iff

/-- The state update leaves a legal index, whatever index and code it started from (R87). -/
theorem update_legal (t : Rom) (k : Code) (r : StateRegister) : (update t k r).legal = true :=
  StateRegister.legal_iff.mpr (clampIndex_le _)

/-- A load leaves a legal index (R121, R122). -/
theorem loaded_legal (p : Sample) (n : StepIndex) : (StateRegister.loaded p n).legal = true :=
  StateRegister.legal_iff.mpr (saturateIndex_le n)

/-- Loading the contents of a register with a legal index gives those contents: the saturation takes nothing away (R123). -/
theorem loaded_of_legal {r : StateRegister} (h : r.legal = true) : StateRegister.loaded r.pred r.idx = r := by
  rw [StateRegister.loaded, saturateIndex_of_le (StateRegister.legal_iff.mp h)]

/-- Every operation keeps an initialised encoder's index legal. -/
theorem EncChannel.perform_legal {c : EncChannel} (h : c.initialised = true → c.reg.legal = true) (i : Instr) :
    (c.perform i).initialised = true → (c.perform i).reg.legal = true := by
  cases i with
  | rst => exact fun _ => rfl
  | lde p n => exact fun _ => loaded_legal p n
  | enc x => exact fun _ => update_legal ..
  | enop | ldd | dec | dnop => exact h

/-- Every operation keeps an initialised decoder's index legal. -/
theorem DecChannel.perform_legal {c : DecChannel} (h : c.initialised = true → c.reg.legal = true) (i : Instr) :
    (c.perform i).initialised = true → (c.perform i).reg.legal = true := by
  cases i with
  | rst => exact fun _ => rfl
  | ldd p n => exact fun _ => loaded_legal p n
  | dec k => exact fun _ => update_legal ..
  | dnop | lde | enc | enop => exact h

/-- After every operation an initialised decoder with its valid bit up shows its own prediction: DEC writes both from one value,
and the other operations of the channel clear the bit. -/
theorem DecChannel.perform_shown {c : DecChannel}
    (h : c.initialised = true → c.outValid = true → c.outSample = c.reg.pred) (i : Instr) :
    (c.perform i).initialised = true → (c.perform i).outValid = true → (c.perform i).outSample = (c.perform i).reg.pred := by
  cases i with
  | rst | ldd | dnop => exact fun _ hv => absurd hv Bool.false_ne_true
  | dec k => exact fun _ _ => rfl
  | lde | enc | enop => exact h

/-- Settles O42: each channel's part of the invariant is kept by the operation that channel performs. -/
theorem stepKeepsInvariant : Obligations.StepKeepsInvariant := by
  intro s t hs h
  have he := step_enc h
  have hd := step_dec h
  exact
    { encIndex := he ▸ EncChannel.perform_legal hs.encIndex _
      decIndex := hd ▸ DecChannel.perform_legal hs.decIndex _
      decShown := hd ▸ DecChannel.perform_shown hs.decShown _ }

/-- Settles O34: the invariant makes the observed index legal, and a legal index is loaded as it is. -/
theorem saveAndRestoreIsExact : Obligations.SaveAndRestoreIsExact := by
  intro s u hs
  refine ⟨fun hi => ?_, fun hi => ?_⟩
  · have hr := loaded_of_legal (hs.encIndex hi)
    exact ⟨⟨_, rfl, hr⟩, ⟨_, rfl, hr⟩⟩
  · have hr := loaded_of_legal (hs.decIndex hi)
    exact ⟨⟨_, rfl, hr⟩, ⟨_, rfl, hr⟩⟩

/-! ### Valid bits and outputs (R24, R29) -/

/-- The encoder's valid bit after the operation decoded from the ports: up exactly for ENC. -/
theorem EncChannel.perform_decode_outValid (c : EncChannel) (q : Inputs) :
    (c.perform (decodeEcmd q.ecmd)).outValid = (!q.rst && !q.encLoad && q.encInValid) := by
  rw [decode_ecmd]
  split_ifs with hr hl hv <;> simp [*]

/-- The decoder's valid bit after the operation decoded from the ports: up exactly for DEC. -/
theorem DecChannel.perform_decode_outValid (c : DecChannel) (q : Inputs) :
    (c.perform (decodeDcmd q.dcmd)).outValid = (!q.rst && !q.decLoad && q.decInValid) := by
  rw [decode_dcmd]
  split_ifs with hr hl hv <;> simp [*]

/-- Settles O44: every operation of a channel writes that channel's valid bit, so the state before has no part in it. -/
theorem validBitsFollowInputs : Obligations.ValidBitsFollowInputs := by
  intro s t h
  rw [step_enc h, step_dec h]
  exact ⟨EncChannel.perform_decode_outValid .., DecChannel.perform_decode_outValid ..⟩

/-- Settles O46: the edge performs a DEC, which writes one value to the sample register and to the prediction. -/
theorem decodedSampleIsPrediction : Obligations.DecodedSampleIsPrediction := by
  intro s t h hr hl hv
  have hdec : decodeDcmd s.pins.dcmd = .dec s.pins.decInCode := by simp [decode_dcmd, hr, hl, hv]
  have ht : t.dec = s.dec.perform (.dec s.pins.decInCode) := hdec ▸ step_dec h
  simp [State.outputs, ht]

/-- Settles O49: each channel's next contents are a function of its own contents and bundle. -/
theorem channelsAreIsolated : Obligations.ChannelsAreIsolated := by
  intro s u t v hs hu
  refine ⟨fun hc hb => ?_, fun hc hb => ?_⟩
  · rw [step_enc hs, step_enc hu, hc, hb]
  · rw [step_dec hs, step_dec hu, hc, hb]

/-- Settles O35: the ports are defined field by field as the registers behind them. -/
theorem portsShowRegisters : Obligations.PortsShowRegisters := fun _ => rfl

end Sys2Proof.Machine
end

section
/-! PROOFS. The tables (20_memory.md R41 to R48), and what the operations of one channel leave unchanged and in which order the two
operations of one edge may be performed (R54, R55). -/

namespace Sys2Proof.Machine

/-! ### The frame of one channel's operation (R55, R24) -/

/-- An operation of the encoder channel completes exactly where it is no ENC on an uninitialised channel (R145), and then writes the
encoder channel alone. -/
theorem exec_encoder_next_iff {i : Instr} (h : i.fits .encoder = true) (hr : i ≠ .rst) {s t : State} :
    exec i s = .next t ↔ ((∃ x, i = .enc x) → s.enc.initialised = true) ∧ s.setEnc (s.enc.perform i) = t := by
  cases i with
  | rst => exact absurd rfl hr
  | enc x => exact ifInitialised_next.trans (and_congr_left fun _ => ⟨fun hb _ => hb, fun hb => hb ⟨x, rfl⟩⟩)
  | lde | enop => simp [exec, execLde, execEnop]
  | ldd | dec | dnop => cases h

/-- An operation of the decoder channel completes exactly where it is no DEC on an uninitialised channel (R145), and then writes the
decoder channel alone. -/
theorem exec_decoder_next_iff {i : Instr} (h : i.fits .decoder = true) (hr : i ≠ .rst) {s t : State} :
    exec i s = .next t ↔ ((∃ k, i = .dec k) → s.dec.initialised = true) ∧ s.setDec (s.dec.perform i) = t := by
  cases i with
  | rst => exact absurd rfl hr
  | dec k => exact ifInitialised_next.trans (and_congr_left fun _ => ⟨fun hb _ => hb, fun hb => hb ⟨k, rfl⟩⟩)
  | ldd | dnop => simp [exec, execLdd, execDnop]
  | lde | enc | enop => cases h

/-- No operation makes an initialised encoder channel uninitialised. -/
theorem EncChannel.perform_initialised {c : EncChannel} (h : c.initialised = true) (i : Instr) :
    (c.perform i).initialised = true := by
  cases i <;> simp [h]

/-- No operation makes an initialised decoder channel uninitialised. -/
theorem DecChannel.perform_initialised {c : DecChannel} (h : c.initialised = true) (i : Instr) :
    (c.perform i).initialised = true := by
  cases i <;> simp [h]

/-- `E.out_code` is written by ENC and RST only (R24). -/
theorem EncChannel.enc_of_perform_outCode_ne {c : EncChannel} {i : Instr} (hr : i ≠ .rst)
    (h : (c.perform i).outCode ≠ c.outCode) : ∃ x, i = .enc x := by
  cases i with
  | rst => exact absurd rfl hr
  | enc x => exact ⟨x, rfl⟩
  | lde | enop | ldd | dec | dnop => exact absurd rfl h

/-- `D.out_sample` is written by DEC and RST only (R24). -/
theorem DecChannel.dec_of_perform_outSample_ne {c : DecChannel} {i : Instr} (hr : i ≠ .rst)
    (h : (c.perform i).outSample ≠ c.outSample) : ∃ k, i = .dec k := by
  cases i with
  | rst => exact absurd rfl hr
  | dec k => exact ⟨k, rfl⟩
  | ldd | dnop | lde | enc | enop => exact absurd rfl h

/-- Of the encoder channel's operations, ENC alone leaves `E.out_valid` up (R24). -/
theorem EncChannel.perform_outValid_iff (c : EncChannel) {i : Instr} (h : i.fits .encoder = true) :
    (c.perform i).outValid = true ↔ ∃ x, i = .enc x := by
  cases i with
  | rst | lde | enc | enop => simp
  | ldd | dec | dnop => cases h

/-- Of the decoder channel's operations, DEC alone leaves `D.out_valid` up (R24). -/
theorem DecChannel.perform_outValid_iff (c : DecChannel) {i : Instr} (h : i.fits .decoder = true) :
    (c.perform i).outValid = true ↔ ∃ k, i = .dec k := by
  cases i with
  | rst | ldd | dec | dnop => simp
  | lde | enc | enop => cases h

/-- Settles O32: a completed operation of the encoder channel writes that channel alone, with what it performs there. -/
theorem encoderOperationsFrame : Obligations.EncoderOperationsFrame := by
  intro i s t hfit hr h
  obtain ⟨-, rfl⟩ := (exec_encoder_next_iff hfit hr).mp h
  have hreg : (s.enc.perform i).reg ≠ s.enc.reg → i ≠ .enop := by
    rintro hne rfl
    exact hne rfl
  exact ⟨rfl, rfl, rfl, EncChannel.enc_of_perform_outCode_ne hr, hreg,
    fun hi => EncChannel.perform_initialised hi i, EncChannel.perform_outValid_iff _ hfit⟩

/-- Settles O33: a completed operation of the decoder channel writes that channel alone, with what it performs there. -/
theorem decoderOperationsFrame : Obligations.DecoderOperationsFrame := by
  intro i s t hfit hr h
  obtain ⟨-, rfl⟩ := (exec_decoder_next_iff hfit hr).mp h
  have hreg : (s.dec.perform i).reg ≠ s.dec.reg → i ≠ .dnop := by
    rintro hne rfl
    exact hne rfl
  exact ⟨rfl, rfl, rfl, DecChannel.dec_of_perform_outSample_ne hr, hreg,
    fun hi => DecChannel.perform_initialised hi i, DecChannel.perform_outValid_iff _ hfit⟩

/-- Settles O48: neither operation writes what the other's condition and result depend on, and the two writes commute. -/
theorem channelOrderIsUnseen : Obligations.ChannelOrderIsUnseen := by
  intro s t i j hi hj hir hjr
  simp only [andThen_next, exec_encoder_next_iff hi hir, exec_decoder_next_iff hj hjr, and_assoc, exists_and_left,
    exists_eq_left', State.setEnc_dec, State.setDec_enc, State.setDec_setEnc]
  exact and_left_comm

/-! ### The tables (R41 to R48) -/

/-- A read of `step_rom` inside the table gives its entry. -/
theorem Rom.getElem?_step {t : Rom} {i : StepIndex} (h : i.toNat < t.step.length) :
    t.step[i.toNat]? = some (t.stepAt i) := by
  simp [Rom.stepAt, List.getElem?_eq_getElem h]

/-- A read of `index_rom` inside the table gives its entry. -/
theorem Rom.getElem?_index {t : Rom} {c : Code} (h : c.toNat < t.index.length) :
    t.index[c.toNat]? = some (t.indexAt c) := by
  simp [Rom.indexAt, List.getElem?_eq_getElem h]

theorem rom_step_length : rom.step.length = 89 := by decide

theorem rom_index_length : rom.index.length = 16 := by decide

/-- Each entry of the step table is below the next (R41). -/
theorem rom_step_isChain : rom.step.IsChain (· < ·) := by simp [rom, stepTable]

/-- The first and the last entry of the step table bound all of them. -/
theorem rom_step_range : ∀ v ∈ rom.step, 7 ≤ v ∧ v ≤ 32767 := by decide

theorem rom_index_range : ∀ v ∈ rom.index, -1 ≤ v ∧ v ≤ 8 := by decide

/-- A read of `step_rom` at a legal index hits its entry (R48). -/
theorem rom_getElem?_step {i : StepIndex} (h : i.toNat ≤ 88) : rom.step[i.toNat]? = some (rom.stepAt i) :=
  Rom.getElem?_step (by rw [rom_step_length]; omega)

/-- A read of `index_rom` hits an entry at every code (R48). -/
theorem rom_getElem?_index (c : Code) : rom.index[c.toNat]? = some (rom.indexAt c) :=
  Rom.getElem?_index (by rw [rom_index_length]; exact c.isLt)

/-- The step size grows with the index, up to the last legal one (R41). -/
theorem rom_stepAt_lt_succ {i : StepIndex} (h : i.toNat < 88) : rom.stepAt i < rom.stepAt (i + 1) := by
  have hsucc : (i + 1).toNat = i.toNat + 1 := by
    simp; omega
  have hlen : i.toNat + 1 < rom.step.length := by rw [rom_step_length]; omega
  obtain ⟨_, hi⟩ := List.getElem?_eq_some_iff.mp (rom_getElem?_step (i := i) (by omega))
  obtain ⟨_, hn⟩ := List.getElem?_eq_some_iff.mp (rom_getElem?_step (i := i + 1) (by omega))
  simp only [hsucc] at hn
  rw [← hi, ← hn]
  exact List.isChain_iff_getElem.mp rom_step_isChain _ hlen

/-- Settles O1: the order and the signs hold of the whole table, the fixed entries are reads of it. -/
theorem tablesMeetConstraints : Obligations.TablesMeetConstraints := by
  have hpos : ∀ v ∈ rom.step, 0 < v := fun v hv => Nat.lt_of_lt_of_le (by decide) (rom_step_range v hv).1
  exact ⟨rom_step_length, hpos, fun i => rom_stepAt_lt_succ, by decide, by decide, rom_index_length, by decide, by decide,
    ⟨7, by decide⟩, ⟨0, by decide⟩⟩

/-- Settles O2: a read that hits an entry gives a member of the table, and every member lies in its range. -/
theorem tableReadsStayInTable : Obligations.TableReadsStayInTable := by
  refine ⟨fun i hi => ?_, fun c => ?_⟩
  · have hread := rom_getElem?_step hi
    exact ⟨hread, rom_step_range _ (List.mem_of_getElem? hread)⟩
  · have hread := rom_getElem?_index c
    exact ⟨hread, rom_index_range _ (List.mem_of_getElem? hread)⟩

end Sys2Proof.Machine
end

section
/-! PROOFS. The encodings (30_encoding.md): bundles and ports, the two decoders and their table, and the encoder. -/

namespace Sys2Proof

/-! ### Decoding undoes encoding (R63 to R67) -/

/-- The encoder channel decodes each of its operations from the bundle that spells it. -/
theorem decodeEcmd_encode {i : Instr} (h : i.fits .encoder = true) : decodeEcmd (encode i) = i := by
  cases i with
  | rst | lde | enc | enop => simp [decodeEcmd, encode]
  | ldd | dec | dnop => cases h

/-- The decoder channel decodes each of its operations from the bundle that spells it. -/
theorem decodeDcmd_encode {i : Instr} (h : i.fits .decoder = true) : decodeDcmd (encode i) = i := by
  cases i with
  | rst | ldd | dec | dnop => simp [decodeDcmd, encode]
  | lde | enc | enop => cases h

/-- Settles O21: each channel decodes its own operations from what the encoder packs. -/
theorem decodeOfEncode : Obligations.DecodeOfEncode := by
  intro ch i h
  cases ch with
  | encoder => exact decodeEcmd_encode h
  | decoder => exact decodeDcmd_encode h

/-- Among the bundles that spell operations, RST's alone has bit 41. -/
theorem encode_r (i : Instr) : Bundle.r (encode i) = (i == .rst) := by
  cases i <;> simp [encode]

/-! ### Bundles and ports (R63, R64) -/

/-- The encoder's bundle survives its passage through the ports where the other bundle adds no `rst`. -/
theorem decodeEcmd_ofBundles {e d : Bundle} (h : Bundle.r d = true → Bundle.r e = true) :
    decodeEcmd (Inputs.ofBundles e d).ecmd = decodeEcmd e := by
  have hr : (Bundle.r e || Bundle.r d) = Bundle.r e := by simpa using h
  rw [decode_ecmd, decodeEcmd]
  simp only [Inputs.ofBundles, hr]

/-- The decoder's bundle survives its passage through the ports where the other bundle adds no `rst`. -/
theorem decodeDcmd_ofBundles {e d : Bundle} (h : Bundle.r e = true → Bundle.r d = true) :
    decodeDcmd (Inputs.ofBundles e d).dcmd = decodeDcmd d := by
  have hr : (Bundle.r e || Bundle.r d) = Bundle.r d := by simpa using h
  rw [decode_dcmd, decodeDcmd]
  simp only [Inputs.ofBundles, hr]

/-- Settles O17: a port's field is read back from the bundle that packs it. -/
theorem bundlesPackPorts : Obligations.BundlesPackPorts := by
  intro p
  refine ⟨⟨pack_r .., pack_l .., pack_v .., pack_i .., pack_p .., pack_s ..⟩,
    ⟨pack_r .., pack_l .., pack_v .., pack_i .., pack_p .., pack_noWire .., pack_c ..⟩, ?_⟩
  simp [Inputs.ofBundles, Inputs.ecmd, Inputs.dcmd]

/-- Two operations other than RST, each on its own channel, make a well-formed line. -/
theorem Line.wf_of_ne_rst {i j : Instr} (hi : i.fits .encoder = true) (hj : j.fits .decoder = true) (hir : i ≠ .rst)
    (hjr : j ≠ .rst) : Line.wf ⟨i, j⟩ = true := by
  simp [Line.wf, Line.encoderSide, Line.decoderSide, Line.oneReset, hi, hj, hir, hjr]

/-- Settles O22: the two bundles agree on `rst`, so each survives the ports, and each side decodes from its own. -/
theorem lineRoundTrip : Obligations.LineRoundTrip := by
  intro l h
  simp only [Line.wf, Line.encoderSide, Line.decoderSide, Line.oneReset, Bool.and_eq_true, beq_iff_eq] at h
  obtain ⟨⟨he, hd⟩, hrst⟩ := h
  have hr : Bundle.r (encode l.e) = Bundle.r (encode l.d) := by rw [encode_r, encode_r, hrst]
  rw [encodeLine, decodeLine, decodeEcmd_ofBundles hr.trans, decodeDcmd_ofBundles hr.symm.trans, decodeEcmd_encode he,
    decodeDcmd_encode hd]

/-! ### Priority, and the fields without effect (R65, R66, R68) -/

/-- Settles O18: the two decoders are defined as these chains, the fields as these bits. -/
theorem decodeByPriority : Obligations.DecodeByPriority := fun _ => ⟨rfl, rfl⟩

/-- Settles O23: the eleven bundles are evaluated. -/
theorem specBundlesDecode : Obligations.SpecBundlesDecode := by
  unfold Obligations.SpecBundlesDecode
  decide

/-- The decoder channel's operation depends on bits 41:16 and 3:0 of its bundle alone: DCMD[15:4] has no wire (R64). -/
theorem decodeDcmd_congr {w u : Bundle} (hc : w.extractLsb' 0 4 = u.extractLsb' 0 4)
    (hf : w.extractLsb' 16 26 = u.extractLsb' 16 26) : decodeDcmd w = decodeDcmd u := by
  have hbit (k : Nat) (hk : k < 26) : w.getLsbD (16 + k) = u.getLsbD (16 + k) := by
    simpa [hk] using congrArg (BitVec.getLsbD · k) hf
  have hr : Bundle.r w = Bundle.r u := hbit 25 (by decide)
  have hl : Bundle.l w = Bundle.l u := hbit 24 (by decide)
  have hv : Bundle.v w = Bundle.v u := hbit 23 (by decide)
  have hfield (a n : Nat) (h : a + n ≤ 26) : w.extractLsb' (16 + a) n = u.extractLsb' (16 + a) n := by
    ext k hk
    rw [BitVec.getElem_extractLsb', BitVec.getElem_extractLsb', Nat.add_assoc]
    exact hbit (a + k) (by omega)
  have hp : Bundle.p w = Bundle.p u := hfield 0 16 (by decide)
  have hi : Bundle.i w = Bundle.i u := hfield 16 7 (by decide)
  have hc : Bundle.c w = Bundle.c u := hc
  rw [decodeDcmd, decodeDcmd, hr, hl, hv, hp, hi, hc]

section priority
variable {w : Bundle}

theorem decodeEcmd_of_rst (hr : Bundle.r w = true) : decodeEcmd w = .rst := if_pos hr

theorem decodeEcmd_of_load (hr : Bundle.r w = false) (hl : Bundle.l w = true) :
    decodeEcmd w = .lde (Bundle.p w) (Bundle.i w) := by
  simp [decodeEcmd, hr, hl]

theorem decodeEcmd_of_valid (hr : Bundle.r w = false) (hl : Bundle.l w = false) (hv : Bundle.v w = true) :
    decodeEcmd w = .enc (Bundle.s w) := by
  simp [decodeEcmd, hr, hl, hv]

theorem decodeEcmd_of_idle (hr : Bundle.r w = false) (hl : Bundle.l w = false) (hv : Bundle.v w = false) :
    decodeEcmd w = .enop := by
  simp [decodeEcmd, hr, hl, hv]

theorem decodeDcmd_of_rst (hr : Bundle.r w = true) : decodeDcmd w = .rst := if_pos hr

theorem decodeDcmd_of_load (hr : Bundle.r w = false) (hl : Bundle.l w = true) :
    decodeDcmd w = .ldd (Bundle.p w) (Bundle.i w) := by
  simp [decodeDcmd, hr, hl]

theorem decodeDcmd_of_valid (hr : Bundle.r w = false) (hl : Bundle.l w = false) (hv : Bundle.v w = true) :
    decodeDcmd w = .dec (Bundle.c w) := by
  simp [decodeDcmd, hr, hl, hv]

theorem decodeDcmd_of_idle (hr : Bundle.r w = false) (hl : Bundle.l w = false) (hv : Bundle.v w = false) :
    decodeDcmd w = .dnop := by
  simp [decodeDcmd, hr, hl, hv]

end priority

/-- Settles O20: each case of the decoding reads only the fields in use, and a step decodes the ports before it does anything else. -/
theorem ignoredFieldsHaveNoEffect : Obligations.IgnoredFieldsHaveNoEffect := by
  refine ⟨?rst, ?load, ?valid, ?idle, fun _ _ => decodeDcmd_congr, ?step⟩
  case rst =>
    intro w u hw hu
    rw [decodeEcmd_of_rst hw, decodeEcmd_of_rst hu, decodeDcmd_of_rst hw, decodeDcmd_of_rst hu]
    exact ⟨rfl, rfl⟩
  case load =>
    intro w u hwr hur hwl hul hi hp
    rw [decodeEcmd_of_load hwr hwl, decodeEcmd_of_load hur hul, decodeDcmd_of_load hwr hwl, decodeDcmd_of_load hur hul]
    exact ⟨congrArg₂ Instr.lde hp hi, congrArg₂ Instr.ldd hp hi⟩
  case valid =>
    intro w u hwr hur hwl hul hwv huv
    rw [decodeEcmd_of_valid hwr hwl hwv, decodeEcmd_of_valid hur hul huv, decodeDcmd_of_valid hwr hwl hwv,
      decodeDcmd_of_valid hur hul huv]
    exact ⟨congrArg Instr.enc, congrArg Instr.dec⟩
  case idle =>
    intro w u hwr hur hwl hul hwv huv
    rw [decodeEcmd_of_idle hwr hwl hwv, decodeEcmd_of_idle hur hul huv, decodeDcmd_of_idle hwr hwl hwv,
      decodeDcmd_of_idle hur hul huv]
    exact ⟨rfl, rfl⟩
  case step =>
    intro s p q h
    exact congrArg (fun l => Machine.runLine l s.advance) h

/-! ### The opcode table (R69) -/

/-- The mnemonic of the encoder channel's operation, from the three request bits. -/
theorem mnemonic_decodeEcmd (w : Bundle) : (decodeEcmd w).mnemonic =
    if Bundle.r w then "RST" else if Bundle.l w then "LDE" else if Bundle.v w then "ENC" else "ENOP" := by
  unfold decodeEcmd
  split_ifs <;> rfl

/-- The mnemonic of the decoder channel's operation, from the three request bits. -/
theorem mnemonic_decodeDcmd (w : Bundle) : (decodeDcmd w).mnemonic =
    if Bundle.r w then "RST" else if Bundle.l w then "LDD" else if Bundle.v w then "DEC" else "DNOP" := by
  unfold decodeDcmd
  split_ifs <;> rfl

/-- A row of the channel holds a bundle exactly where the operation the channel decodes has the row's mnemonic. -/
theorem row_holds_eq (ch : Channel) (w : Bundle) :
    ∀ row ∈ opcodeTable, row.onChannel ch = true → row.holds w = ((decodeOn ch w).mnemonic == row.mnemonic) := by
  -- A row tests only the three request bits and the mnemonic depends only on them, so eight cases decide each row.
  cases ch with
  | encoder =>
    simp only [opcodeTable, List.forall_mem_cons, List.not_mem_nil, IsEmpty.forall_iff, implies_true, Row.holds, row_rst, row_load,
      row_valid, row_idle, decodeOn, mnemonic_decodeEcmd]
    generalize Bundle.r w = r, Bundle.l w = l, Bundle.v w = v
    revert r l v
    decide
  | decoder =>
    simp only [opcodeTable, List.forall_mem_cons, List.not_mem_nil, IsEmpty.forall_iff, implies_true, Row.holds, row_rst, row_load,
      row_valid, row_idle, decodeOn, mnemonic_decodeDcmd]
    generalize Bundle.r w = r, Bundle.l w = l, Bundle.v w = v
    revert r l v
    decide

/-- Each operation that fits a channel has its mnemonic in exactly one row of that channel. -/
theorem rows_of_mnemonic {ch : Channel} {i : Instr} (h : i.fits ch = true) :
    (opcodeTable.filter (fun row => row.onChannel ch && i.mnemonic == row.mnemonic)).length = 1 := by
  cases i with
  | rst => cases ch <;> rfl
  | lde | enc | enop =>
    cases ch with
    | encoder => rfl
    | decoder => cases h
  | ldd | dec | dnop =>
    cases ch with
    | encoder => cases h
    | decoder => rfl

theorem decodeOn_fits (ch : Channel) (w : Bundle) : (decodeOn ch w).fits ch = true := by
  cases ch with
  | encoder => exact decodeEcmd_fits w
  | decoder => exact decodeDcmd_fits w

/-- Settles O19: on a channel the rows that hold a bundle are those with the mnemonic of its operation, and there is one of them. -/
theorem decodeAgreesWithTable : Obligations.DecodeAgreesWithTable := by
  intro ch w
  refine ⟨fun row hrow hch => by rw [row_holds_eq ch w row hrow hch, beq_iff_eq], ?_⟩
  have hsame : opcodeTable.filter (fun row => row.onChannel ch && row.holds w) =
      opcodeTable.filter (fun row => row.onChannel ch && (decodeOn ch w).mnemonic == row.mnemonic) := by
    refine List.filter_congr fun row hrow => ?_
    cases hch : row.onChannel ch with
    | false => rfl
    | true => rw [row_holds_eq ch w row hrow hch]
  rw [hsame, rows_of_mnemonic (decodeOn_fits ch w)]

end Sys2Proof
end

section
/-! PROOFS. Trace lines (30_encoding.md R71): what a written operation spells, and which lines are refused (93 U1). -/

namespace Sys2Proof

open Machine

/-! ### Written operations in range -/

/-- The written encoder operation is in range and spells the operation `i`, which is not RST. `EncOp.Spells.alone` ties it to the ports. -/
structure EncOp.Spells (e : EncOp) (i : Instr) : Prop where
  wf : e.wf = true
  rstBit : e.rstBit = false
  bundle : encOpBundle e = encode i
  fits : i.fits .encoder = true
  ne_rst : i ≠ .rst

/-- The written decoder operation is in range and spells the operation `i`, which is not RST. `DecOp.Spells.alone` ties it to the ports. -/
structure DecOp.Spells (d : DecOp) (i : Instr) : Prop where
  wf : d.wf = true
  rstBit : d.rstBit = false
  bundle : decOpBundle d = encode i
  fits : i.fits .decoder = true
  ne_rst : i ≠ .rst

theorem EncOp.spells_enc {l : Literal} {x : Sample} (h : SpellsSample l x) : (EncOp.enc l).Spells (.enc x) := by
  obtain ⟨hl, hx⟩ := literal_of_spellsSample h
  exact ⟨hl, rfl, by rw [encOpBundle, hx], rfl, Instr.noConfusion⟩

theorem EncOp.spells_lde {l m : Literal} {x : Sample} {i : StepIndex} (hx : SpellsSample l x) (hi : SpellsIndex m i) :
    (EncOp.lde l m).Spells (.lde x i) := by
  obtain ⟨hl, hx⟩ := literal_of_spellsSample hx
  obtain ⟨hm, hi⟩ := literal_of_spellsIndex hi
  exact ⟨by rw [EncOp.wf, hl, hm]; rfl, rfl, by rw [encOpBundle, hx, hi], rfl, Instr.noConfusion⟩

theorem DecOp.spells_dec {l : Literal} {c : Code} (h : SpellsCode l c) : (DecOp.dec l).Spells (.dec c) := by
  obtain ⟨hl, hc⟩ := literal_of_spellsCode h
  exact ⟨hl, rfl, by rw [decOpBundle, hc], rfl, Instr.noConfusion⟩

theorem DecOp.spells_ldd {l m : Literal} {x : Sample} {i : StepIndex} (hx : SpellsSample l x) (hi : SpellsIndex m i) :
    (DecOp.ldd l m).Spells (.ldd x i) := by
  obtain ⟨hl, hx⟩ := literal_of_spellsSample hx
  obtain ⟨hm, hi⟩ := literal_of_spellsIndex hi
  exact ⟨by rw [DecOp.wf, hl, hm]; rfl, rfl, by rw [decOpBundle, hx, hi], rfl, Instr.noConfusion⟩

/-- An encoder operation written alone stands beside DNOP. -/
theorem EncOp.Spells.alone {e : EncOp} {i : Instr} (h : e.Spells i) :
    ∃ p, traceInputs (.encOnly e) = some p ∧ decodeLine p = ⟨i, .dnop⟩ := by
  refine ⟨encodeLine ⟨i, .dnop⟩, ?_, lineRoundTrip _ (Line.wf_of_ne_rst h.fits rfl h.ne_rst Instr.noConfusion)⟩
  rw [traceInputs_of_wf (l := .encOnly e) h.wf, traceBundles, h.bundle, encodeLine]

/-- A decoder operation written alone stands beside ENOP. -/
theorem DecOp.Spells.alone {d : DecOp} {j : Instr} (h : d.Spells j) :
    ∃ p, traceInputs (.decOnly d) = some p ∧ decodeLine p = ⟨.enop, j⟩ := by
  refine ⟨encodeLine ⟨.enop, j⟩, ?_, lineRoundTrip _ (Line.wf_of_ne_rst rfl h.fits Instr.noConfusion h.ne_rst)⟩
  rw [traceInputs_of_wf (l := .decOnly d) h.wf, traceBundles, h.bundle, encodeLine]

/-- Two operations written on one line decode each on its own channel. -/
theorem EncOp.Spells.both {e : EncOp} {d : DecOp} {i j : Instr} (he : e.Spells i) (hd : d.Spells j) :
    ∃ p, traceInputs (.both e d) = some p ∧ decodeLine p = ⟨i, j⟩ := by
  refine ⟨encodeLine ⟨i, j⟩, ?_, lineRoundTrip _ (Line.wf_of_ne_rst he.fits hd.fits he.ne_rst hd.ne_rst)⟩
  have hwf : (TraceLine.both e d).wf = true := by simp [TraceLine.wf, he.wf, hd.wf, he.rstBit, hd.rstBit]
  rw [traceInputs_of_wf hwf, traceBundles, he.bundle, hd.bundle, encodeLine]

/-- A raw bundle that fits its field, alone on its line, is decoded as it stands, RST included. -/
theorem traceInputs_raw {w : Nat} (hw : w < 2 ^ 42) :
    (∃ p, traceInputs (.encOnly (.raw w)) = some p ∧ (decodeLine p).e = decodeEcmd (BitVec.ofNat 42 w)) ∧
    (∃ p, traceInputs (.decOnly (.raw w)) = some p ∧ (decodeLine p).d = decodeDcmd (BitVec.ofNat 42 w)) := by
  have hidle {b : Bool} {i : Instr} (h : i ≠ .rst) : Bundle.r (encode i) = true → b = true := by simp [encode_r, h]
  exact ⟨⟨_, traceInputs_of_wf (decide_eq_true hw), decodeEcmd_ofBundles (hidle Instr.noConfusion)⟩,
    ⟨_, traceInputs_of_wf (decide_eq_true hw), decodeDcmd_ofBundles (hidle Instr.noConfusion)⟩⟩

/-! ### Written operations out of range -/

theorem EncOp.lde_wf_of_pred {l : Literal} (h : l.isSample = false) (m : Literal) : (EncOp.lde l m).wf = false := by
  rw [EncOp.wf, h]; rfl

theorem EncOp.lde_wf_of_index {m : Literal} (h : m.isIndex = false) (l : Literal) : (EncOp.lde l m).wf = false := by
  rw [EncOp.wf, h, Bool.and_false]

theorem DecOp.ldd_wf_of_pred {l : Literal} (h : l.isSample = false) (m : Literal) : (DecOp.ldd l m).wf = false := by
  rw [DecOp.wf, h]; rfl

theorem DecOp.ldd_wf_of_index {m : Literal} (h : m.isIndex = false) (l : Literal) : (DecOp.ldd l m).wf = false := by
  rw [DecOp.wf, h, Bool.and_false]

/-- Settles O24: a number in range makes its operation spell the operand, a number out of range makes its side ill-formed. -/
theorem traceNumbersSpellOperands : Obligations.TraceNumbersSpellOperands := by
  refine ⟨fun l x hx => (EncOp.spells_enc hx).alone, fun l c hc => (DecOp.spells_dec hc).alone,
    fun l m x c hx hc => (EncOp.spells_enc hx).both (DecOp.spells_dec hc),
    fun l m x i hx hi => ⟨(EncOp.spells_lde hx hi).alone, (DecOp.spells_ldd hx hi).alone⟩,
    fun l m k n x y i j hx hi hy hj => (EncOp.spells_lde hx hi).both (DecOp.spells_ldd hy hj),
    fun w => traceInputs_raw, ?sample, ?index, ?code, ?raw⟩
  case sample =>
    intro l m e d h
    have hl := isSample_of_outOfRange h
    obtain ⟨henc, henc'⟩ := traceInputs_of_encOp (e := .enc l) hl
    obtain ⟨hlde, hlde'⟩ := traceInputs_of_encOp (EncOp.lde_wf_of_pred hl m)
    obtain ⟨hldd, hldd'⟩ := traceInputs_of_decOp (DecOp.ldd_wf_of_pred hl m)
    exact ⟨henc, henc' d, hlde, hlde' d, hldd, hldd' e⟩
  case index =>
    intro l m e d h
    have hm := isIndex_of_outOfRange h
    obtain ⟨hlde, hlde'⟩ := traceInputs_of_encOp (EncOp.lde_wf_of_index hm l)
    obtain ⟨hldd, hldd'⟩ := traceInputs_of_decOp (DecOp.ldd_wf_of_index hm l)
    exact ⟨hlde, hlde' d, hldd, hldd' e⟩
  case code =>
    intro l e h
    obtain ⟨hdec, hdec'⟩ := traceInputs_of_decOp (d := .dec l) (isCode_of_outOfRange h)
    exact ⟨hdec, hdec' e⟩
  case raw =>
    intro w e d h
    have hw : decide (w < 2 ^ 42) = false := decide_eq_false (Nat.not_lt.mpr h)
    obtain ⟨henc, henc'⟩ := traceInputs_of_encOp (e := .raw w) hw
    obtain ⟨hdec, hdec'⟩ := traceInputs_of_decOp (d := .raw w) hw
    exact ⟨henc, henc' d, hdec, hdec' e⟩

end Sys2Proof
end

section
/-! PROOFS. The sign and the zero case of the quantizer (40_datapath.md R82 to R86). -/

namespace Sys2Proof.Machine

/-- Bit 3 of an assembled code is the sign (R61, R84). -/
theorem assemble_getLsbD_three (sg : Bool) (m : Magnitude) : (assemble sg m).getLsbD 3 = sg := by
  obtain ⟨b2, b1, b0⟩ := m
  revert sg b2 b1 b0
  decide

/-- The sign of a difference is that of the comparison of the two values. -/
theorem sign_diff (x p : Sample) : sign (diff x p) = true ↔ x.toInt < p.toInt :=
  decide_eq_true_iff.trans sub_neg

/-- Settles O8: bit 3 of the assembled code is the sign of the difference. -/
theorem codeSignBit : Obligations.CodeSignBit := by
  intro t x r
  rw [encodeCode, assemble_getLsbD_three, sign_diff]

theorem diff_self (x : Sample) : diff x x = 0 := Int.sub_self _

/-- At a step whose smallest threshold, `step >> 2`, is positive, the magnitude 0 reaches no threshold (R83). -/
theorem quantize_zero {step : Nat} (h : 4 ≤ step) : quantize 0 step = ⟨false, false, false⟩ := by
  simp [quantize, remainder, reaches, Nat.shiftRight_eq_div_pow]
  omega

/-- The sign and the three magnitude bits of the code 0 are 0, so only `step >> 3` is left (R85). -/
theorem dequantize_zero (step : Nat) : dequantize 0 step = step / 8 := by
  simp [dequantize, contribution, Nat.shiftRight_eq_div_pow]

/-- The new prediction is the sum of R86, clamped. -/
theorem predictorUpdate_toInt (p : Sample) (c : Code) (d : Nat) :
    (predictorUpdate p c d).toInt = max (-32768) (min 32767 (predictorSum p c d)) :=
  (clampSample_toInt _).trans (clamp_eq_max_min _ _ _ (by decide))

/-- The step at a legal index is at least the table's first entry. -/
theorem seven_le_stepAt {r : StateRegister} (h : r.legal = true) : 7 ≤ rom.stepAt r.idx :=
  (rom_step_range _ (List.mem_of_getElem? (rom_getElem?_step (StateRegister.legal_iff.mp h)))).1

/-- Settles O9: the magnitude 0 reaches no threshold at a step of 7 or more; a move upwards can meet only the upper clamp. -/
theorem zeroDifferenceIsCodeZero : Obligations.ZeroDifferenceIsCodeZero := by
  intro r hr
  have hstep := seven_le_stepAt hr
  constructor
  · have hq : quantize 0 (rom.stepAt r.idx) = ⟨false, false, false⟩ := quantize_zero (by omega)
    simp only [encodeCode, diff_self, mag, Int.natAbs_zero, hq]
    rfl
  · have hlow := r.pred.le_toInt
    have hsum : predictorSum r.pred 0 (rom.stepAt r.idx / 8) = r.pred.toInt + (rom.stepAt r.idx / 8 : Nat) := by
      simp [predictorSum, sampleValue]
    rw [update, predictorUpdate_toInt, dequantize_zero, hsum]
    omega

end Sys2Proof.Machine
end

section
/-! PROOFS. What an edge runs, and the streams of R72 on the machine. -/

namespace Sys2Proof.Machine

/-! ### What one edge runs (R65, R66, R144) -/

theorem runLine_of_eq_rst {l : Line} (h : l.e = .rst) (s : State) : runLine l s = exec .rst s := by
  rw [runLine, h]

/-- An edge with `rst` on the ports is one RST. -/
theorem step_of_rst {s : State} (h : s.pins.rst = true) : step s = exec .rst s.advance :=
  runLine_of_eq_rst ((decode_ecmd_eq_rst s.pins).mpr h) _

/-- An edge without `rst` runs the operations both channels decode. -/
theorem step_of_not_rst {s : State} (h : s.pins.rst = false) :
    step s = andThen (exec (decodeEcmd s.pins.ecmd) s.advance) (exec (decodeDcmd s.pins.dcmd)) := by
  have hne : (decodeLine s.pins).e ≠ .rst := fun he => by simp [(decode_ecmd_eq_rst s.pins).mp he] at h
  exact runLine_of_ne hne _

theorem State.pins_of_inputs {s : State} {p : Inputs} {rest : List Inputs} (h : s.inputs = p :: rest) : s.pins = p := by
  rw [State.pins, h]

/-- Settles O36: the operations of the line that the ports decode to, with or without `rst`. -/
theorem stepRunsDecodedOperations : Obligations.StepRunsDecodedOperations := by
  refine ⟨fun s => step_of_rst, fun s => step_of_not_rst, fun s p rest h => ⟨State.pins_of_inputs h, ?_⟩⟩
  rw [State.advance, h, List.tail_cons]

/-- A word that decodes is a bundle, and it is read as ECMD. -/
theorem decodeTableWord_eq_some {n w : Nat} {i : Instr} :
    decodeTableWord n w = some i ↔ w < 2 ^ 42 ∧ decodeEcmd (BitVec.ofNat 42 w) = i := by
  rw [decodeTableWord, Option.ite_some_none_eq_some]

/-- Settles O37: the word's bundle survives the ports beside the zero bundle, which adds no `rst` and decodes as DNOP. -/
theorem fetchWordIsRun : Obligations.FetchWordIsRun := by
  intro s n w i hi
  obtain ⟨hw, rfl⟩ := decodeTableWord_eq_some.mp hi
  have hs : s.withFetchWord n w = s.drive (tableWordInputs w) := if_pos hw
  have hecmd : decodeEcmd (tableWordInputs w).ecmd = decodeEcmd (BitVec.ofNat 42 w) :=
    decodeEcmd_ofBundles fun h => absurd h (by decide)
  rw [hs]
  refine ⟨fun hrst => ?_, fun hne => ?_⟩
  · exact step_of_rst ((decode_ecmd_eq_rst _).mp (hecmd.trans hrst))
  · have hr : Bundle.r (BitVec.ofNat 42 w) ≠ true := fun h => hne (decodeEcmd_of_rst h)
    have hpins : (tableWordInputs w).rst = false :=
      Bool.eq_false_iff.mpr fun h => hne (hecmd.symm.trans ((decode_ecmd_eq_rst _).mpr h))
    have hdcmd : decodeDcmd (tableWordInputs w).dcmd = .dnop :=
      (decodeDcmd_ofBundles fun h => absurd h hr).trans (by decide)
    rw [step_of_not_rst (s := s.drive (tableWordInputs w)) hpins, State.drive_pins, hecmd, hdcmd, State.drive_advance]

/-! ### Runs of listed lines -/

/-- The channels that must be initialised for the line to complete from `s` are initialised (R145). -/
structure State.Accepts (s : State) (l : Line) : Prop where
  enc : (∃ x, l.e = .enc x) → s.enc.initialised = true
  dec : (∃ k, l.d = .dec k) → s.dec.initialised = true

/-- An edge whose decoded line is accepted completes: each channel performs its own operation. -/
theorem step_eq_next {s : State} (h : s.Accepts (decodeLine s.pins)) :
    step s = .next ((s.advance.setEnc (s.enc.perform (decodeEcmd s.pins.ecmd))).setDec
      (s.dec.perform (decodeDcmd s.pins.dcmd))) := by
  obtain ⟨-, hs⟩ | ⟨-, c, d, hs, -⟩ | ⟨-, -, hi, hx⟩ | ⟨-, -, hi, hk, -⟩ := step_cases s
  · rw [hs, ← step_next_eq hs]
  · rw [hs, ← step_next_eq hs]
  · exact absurd (h.enc hx) (by simp [hi])
  · exact absurd (h.dec hk) (by simp [hi])

/-- The state after the edge of a line: each channel performs its own operation, and one listed input is used up. -/
def State.afterLine (s : State) (l : Line) : State :=
  (s.advance.setEnc (s.enc.perform l.e)).setDec (s.dec.perform l.d)

@[simp] theorem State.afterLine_enc (s : State) (l : Line) : (s.afterLine l).enc = s.enc.perform l.e := rfl
@[simp] theorem State.afterLine_dec (s : State) (l : Line) : (s.afterLine l).dec = s.dec.perform l.d := rfl
@[simp] theorem State.afterLine_inputs (s : State) (l : Line) : (s.afterLine l).inputs = s.inputs.tail := rfl

/-- A well-formed line on the ports that is accepted is performed. -/
theorem step_of_line {s : State} {l : Line} {rest : List Inputs} (hs : s.inputs = encodeLine l :: rest) (hl : l.wf = true)
    (ha : s.Accepts l) : step s = .next (s.afterLine l) := by
  have hline : decodeLine s.pins = l := by rw [State.pins_of_inputs hs, lineRoundTrip l hl]
  rw [step_eq_next (hline.symm ▸ ha), ← hline]
  rfl

/-- What a state accepts is accepted after any line too: no operation makes a channel uninitialised. -/
theorem State.Accepts.afterLine {s : State} {l : Line} (h : s.Accepts l) (m : Line) : (s.afterLine m).Accepts l where
  enc hx := EncChannel.perform_initialised (h.enc hx) m.e
  dec hk := DecChannel.perform_initialised (h.dec hk) m.d

/-- A run of listed lines, all accepted at its start, performs them in order and uses them up. -/
theorem run_lines {s : State} {ls : List Line} {rest : List Inputs} (hs : s.inputs = ls.map encodeLine ++ rest)
    (hl : ∀ l ∈ ls, l.wf = true ∧ s.Accepts l) :
    Host.Core.run Sys2Proof.core ls.length s = .next (ls.foldl State.afterLine s) ∧
      (ls.foldl State.afterLine s).inputs = rest := by
  induction ls generalizing s with
  | nil => exact ⟨rfl, hs⟩
  | cons l ls ih =>
    obtain ⟨⟨hwf, ha⟩, hls⟩ := List.forall_mem_cons.mp hl
    have hstep := step_of_line hs hwf ha
    rw [List.length_cons, run_succ_of_next _ hstep, List.foldl_cons]
    exact ih (by rw [State.afterLine_inputs, hs]; rfl) fun m hm => ⟨(hls m hm).1, (hls m hm).2.afterLine l⟩

theorem foldl_afterLine_enc (s : State) (ls : List Line) :
    (ls.foldl State.afterLine s).enc = ls.foldl (fun c l => c.perform l.e) s.enc :=
  (List.foldl_hom State.enc fun _ _ => rfl).symm

theorem foldl_afterLine_dec (s : State) (ls : List Line) :
    (ls.foldl State.afterLine s).dec = ls.foldl (fun c l => c.perform l.d) s.dec :=
  (List.foldl_hom State.dec fun _ _ => rfl).symm

/-- A run of one listed line and then one line per item of a list: what each channel has performed at its end. -/
theorem run_line_map {α : Type} {s : State} {l : Line} {f : α → Line} {xs : List α} {rest : List Inputs}
    (hs : s.inputs = encodeLine l :: xs.map (fun x => encodeLine (f x)) ++ rest) (hl : l.wf = true) (ha : s.Accepts l)
    (hf : ∀ x, (f x).wf = true ∧ (s.afterLine l).Accepts (f x)) :
    ∃ t : State, Host.Core.run Sys2Proof.core (xs.length + 1) s = .next t ∧
      t.enc = xs.foldl (fun c x => c.perform (f x).e) (s.enc.perform l.e) ∧
      t.dec = xs.foldl (fun c x => c.perform (f x).d) (s.dec.perform l.d) ∧ t.inputs = rest := by
  have hin : (s.afterLine l).inputs = (xs.map f).map encodeLine ++ rest := by
    rw [State.afterLine_inputs, hs, List.map_map]; rfl
  obtain ⟨hrun, hrest⟩ := run_lines hin (List.forall_mem_map.mpr fun x _ => hf x)
  rw [List.length_map] at hrun
  refine ⟨(xs.map f).foldl State.afterLine (s.afterLine l), (run_succ_of_next _ (step_of_line hs hl ha)).trans hrun,
    ?_, ?_, hrest⟩
  · rw [foldl_afterLine_enc, List.foldl_map, State.afterLine_enc]
  · rw [foldl_afterLine_dec, List.foldl_map, State.afterLine_dec]

/-! ### One channel through a stream (R72, R102, R112) -/

/-- The encoder channel after one ENC per sample: the state of `encode_stream`, and its last code shown. -/
theorem EncChannel.foldl_enc (c : EncChannel) (xs : List Sample) :
    xs.foldl (fun c x => c.perform (.enc x)) c =
      { reg := finalState c.reg (encodeStates c.reg xs), initialised := c.initialised,
        outCode := (encodeStream c.reg xs).getLastD c.outCode, outValid := c.outValid || !xs.isEmpty } := by
  induction xs generalizing c with
  | nil => simp [encodeStates, encodeStream, finalState]
  | cons x xs ih => rw [List.foldl_cons, ih]; simp [encodeStates, encodeStream, encodeSample, finalState_cons, List.getLast?_cons]

/-- The decoder channel after one DEC per code: the state of `decode_stream`, and its last sample shown. -/
theorem DecChannel.foldl_dec (c : DecChannel) (ks : List Code) :
    ks.foldl (fun c k => c.perform (.dec k)) c =
      { reg := finalState c.reg (decodeStates c.reg ks), initialised := c.initialised,
        outSample := (decodeStream c.reg ks).getLastD c.outSample, outValid := c.outValid || !ks.isEmpty } := by
  induction ks generalizing c with
  | nil => simp [decodeStates, decodeStream, finalState]
  | cons k ks ih => rw [List.foldl_cons, ih]; simp [decodeStates, decodeStream, decodeCode, finalState_cons, List.getLast?_cons]

/-- A load of 0, 0 is stream start. -/
theorem loaded_zero : StateRegister.loaded 0 0 = .streamStart := by decide

/-- The two channels at the end of an ENCSTREAM. -/
theorem run_encStream {s : State} {xs : List Sample} {rest : List Inputs} (hs : s.inputs = encStream xs ++ rest) :
    ∃ t : State, Host.Core.run Sys2Proof.core (xs.length + 1) s = .next t ∧
      t.enc = xs.foldl (fun c x => c.perform (.enc x)) (s.enc.load .streamStart) ∧ t.dec = s.dec.setValid false ∧
      t.inputs = rest := by
  obtain ⟨t, hrun, he, hd, hin⟩ := run_line_map (f := fun x => ⟨.enc x, .dnop⟩) hs rfl ⟨by simp, by simp⟩
    fun x => ⟨rfl, fun _ => rfl, by simp⟩
  refine ⟨t, hrun, ?_, ?_, hin⟩
  · rw [he, EncChannel.perform_lde, loaded_zero]
  · exact hd.trans (List.foldl_fixed' (fun _ => rfl) xs)

/-- The two channels at the end of a DECSTREAM. -/
theorem run_decStream {s : State} {ks : List Code} {rest : List Inputs} (hs : s.inputs = decStream ks ++ rest) :
    ∃ t : State, Host.Core.run Sys2Proof.core (ks.length + 1) s = .next t ∧
      t.dec = ks.foldl (fun c k => c.perform (.dec k)) (s.dec.load .streamStart) ∧ t.enc = s.enc.setValid false ∧
      t.inputs = rest := by
  obtain ⟨t, hrun, he, hd, hin⟩ := run_line_map (f := fun k => ⟨.enop, .dec k⟩) hs rfl ⟨by simp, by simp⟩
    fun k => ⟨rfl, by simp, fun _ => rfl⟩
  refine ⟨t, hrun, ?_, ?_, hin⟩
  · rw [hd, DecChannel.perform_ldd, loaded_zero]
  · exact he.trans (List.foldl_fixed' (fun _ => rfl) ks)

/-- Settles O53: the load starts the channel at stream start, and one ENC per sample is the fold. -/
theorem encstreamComputesFold : Obligations.EncstreamComputesFold := by
  intro s xs rest hs
  obtain ⟨t, hrun, he, hd, hin⟩ := run_encStream hs
  rw [EncChannel.foldl_enc, EncChannel.load_reg] at he
  refine ⟨t, hrun, by rw [he], by rw [he]; rfl, fun k hk => ?_, hd, hin⟩
  cases xs with
  | nil => cases hk
  | cons x xs => exact ⟨by rw [he, List.getLastD_eq_getLast?, hk]; rfl, by rw [he]; rfl⟩

/-- Settles O54: the load starts the channel at stream start, and one DEC per code is the fold. -/
theorem decstreamComputesFold : Obligations.DecstreamComputesFold := by
  intro s ks rest hs
  obtain ⟨t, hrun, hd, he, hin⟩ := run_decStream hs
  rw [DecChannel.foldl_dec, DecChannel.load_reg] at hd
  refine ⟨t, hrun, by rw [hd], by rw [hd]; rfl, fun y hy => ?_, he, hin⟩
  cases ks with
  | nil => cases hy
  | cons k ks => exact ⟨by rw [hd, List.getLastD_eq_getLast?, hy]; rfl, by rw [hd]; rfl⟩

end Sys2Proof.Machine
end

section
/-! PROOFS. The functions of the datapath and the ranges of their values (40_datapath.md R81 to R95). -/

namespace Sys2Proof.Machine

/-! ### The quantizer (R81 to R84) -/

theorem sampleValue_mem (x : Sample) : -32768 ≤ sampleValue x ∧ sampleValue x ≤ 32767 :=
  ⟨x.le_toInt, Int.le_of_lt_add_one x.toInt_lt⟩

theorem diff_mem (x p : Sample) : -65535 ≤ diff x p ∧ diff x p ≤ 65535 := by
  have hx := sampleValue_mem x
  have hp := sampleValue_mem p
  unfold diff
  omega

/-- Settles O3: the difference of two values of 16 bits. -/
theorem differenceIsExact : Obligations.DifferenceIsExact := fun x p => ⟨rfl, diff_mem x p⟩

theorem mag_diff_le (x p : Sample) : mag (diff x p) ≤ 65535 := by
  have := diff_mem x p
  unfold mag
  omega

/-- The magnitude is the absolute value, by the case of R82. -/
theorem mag_eq (d : Int) : (mag d : Int) = if d < 0 then -d else d := by
  unfold mag
  split <;> omega

/-- Settles O4: `sign` is the comparison with 0, and a difference of 0 is not negative. -/
theorem signAndMagnitude : Obligations.SignAndMagnitude := by
  intro x p
  refine ⟨decide_eq_true, fun h => decide_eq_false (Int.not_lt.mpr h), mag_eq _, mag_diff_le x p, fun h => ?_⟩
  rw [h]
  exact ⟨rfl, rfl⟩

/-- The threshold of bit 0 (R83), as the statements write it. -/
theorem shiftRight_two (n : Nat) : n >>> 2 = n / 4 := Nat.shiftRight_eq_div_pow n 2

/-- Settles O5: the model's remainders are the ones of the statement. -/
theorem quantizeIsGreedy : Obligations.QuantizeIsGreedy := by
  intro m st r₁ r₂ h₁ h₂
  rw [← remainder_eq] at h₁ h₂
  rw [h₂, h₁, ← Nat.shiftRight_one, ← shiftRight_two]
  rfl

/-- What the quantizer's bits stand for, and what is left after the last comparison, add up to the magnitude (R83). -/
theorem quantize_add_remainder (m st : Nat) :
    contribution (quantize m st).b2 st + contribution (quantize m st).b1 (st >>> 1) +
      contribution (quantize m st).b0 (st >>> 2) +
      remainder (remainder (remainder m st) (st >>> 1)) (st >>> 2) = m := by
  have h₂ := remainder_add m st
  have h₁ := remainder_add (remainder m st) (st >>> 1)
  have h₀ := remainder_add (remainder (remainder m st) (st >>> 1)) (st >>> 2)
  simp only [quantize]
  omega

/-- Settles O6: what is left of the magnitude is not negative. -/
theorem quantizeNeverOvershoots : Obligations.QuantizeNeverOvershoots := by
  intro m st
  rw [← Nat.shiftRight_one, ← shiftRight_two]
  exact Nat.le.intro (quantize_add_remainder m st)

/-- The mask of R84 takes nothing away: the four bits make a number below 16. -/
theorem assemble_toNat (sg : Bool) (m : Magnitude) :
    (assemble sg m).toNat = 8 * sg.toNat + 4 * m.b2.toNat + 2 * m.b1.toNat + m.b0.toNat := by
  obtain ⟨b2, b1, b0⟩ := m
  revert sg b2 b1 b0
  decide

/-- Settles O7: the code is assembled from the sign and the quantizer's bits. -/
theorem encodeCodeAssembles : Obligations.EncodeCodeAssembles := by
  rintro t x r m rfl
  exact assemble_toNat _ _

/-! ### The dequantizer and the predictor (R85, R86) -/

/-- `diffq` with its shifts as quotients (R85). -/
theorem dequantize_eq (c : Code) (st : Nat) :
    dequantize c st = st / 8 + contribution (c.getLsbD 2) st + contribution (c.getLsbD 1) (st / 2) +
      contribution (c.getLsbD 0) (st / 4) := by
  simp only [dequantize, Nat.shiftRight_eq_div_pow, Nat.reducePow]

theorem contribution_le (b : Bool) (v : Nat) : contribution b v ≤ v := by
  cases b <;> simp [contribution]

/-- Steps of up to 32767 give at most 4095 + 32767 + 16383 + 8191 (R91). -/
theorem dequantize_le (c : Code) {st : Nat} (h : st ≤ 32767) : dequantize c st ≤ 61436 := by
  have h₂ := contribution_le (c.getLsbD 2) st
  have h₁ := contribution_le (c.getLsbD 1) (st / 2)
  have h₀ := contribution_le (c.getLsbD 0) (st / 4)
  rw [dequantize_eq]
  omega

/-- Settles O11: inverting bit 3 leaves the three bits that the sum reads. -/
theorem dequantizeSums : Obligations.DequantizeSums := by
  intro c st
  exact ⟨dequantize_eq c st, by simp [dequantize], dequantize_le c⟩

/-- The range of the sum before the clamp (R86, R91). -/
theorem predictorSum_mem (p : Sample) (c : Code) {d : Nat} (h : d ≤ 61436) :
    -94204 ≤ predictorSum p c d ∧ predictorSum p c d ≤ 94203 := by
  have hp := sampleValue_mem p
  unfold predictorSum
  split <;> omega

/-- Settles O12: the prediction is the clamped sum, and the clamp is a maximum of a minimum. -/
theorem predictorSaturates : Obligations.PredictorSaturates := fun p c d =>
  ⟨predictorUpdate_toInt p c d, predictorSum_mem p c⟩

/-! ### The index update (R87) -/

/-- The new index is the sum of R87, clamped. -/
theorem indexUpdate_toNat (t : Rom) (i : StepIndex) (c : Code) :
    ((indexUpdate t i c).toNat : Int) = max 0 (min 88 ((i.toNat : Int) + t.indexAt c)) :=
  (clampIndex_toNat _).trans (clamp_eq_max_min _ _ _ (by decide))

/-- The range of the sum before the clamp, with the default table (R87, R91). -/
theorem index_sum_mem {i : StepIndex} (hi : i.toNat ≤ 88) (c : Code) :
    -1 ≤ (i.toNat : Int) + rom.indexAt c ∧ (i.toNat : Int) + rom.indexAt c ≤ 96 := by
  obtain ⟨-, hdelta⟩ := tableReadsStayInTable.2 c
  omega

/-- Settles O13: at either end of the range, a delta that leads out of it is clamped away. -/
theorem indexSaturates : Obligations.IndexSaturates := by
  refine ⟨indexUpdate_toNat, fun t c h => ?_, fun t c h => ?_, fun i c hi => index_sum_mem hi c⟩
  · have hsum : ((indexUpdate t 88 c).toNat : Int) = max 0 (min 88 (88 + t.indexAt c)) := indexUpdate_toNat t 88 c
    exact BitVec.eq_of_toNat_eq (show _ = 88 by omega)
  · have hsum : ((indexUpdate t 0 c).toNat : Int) = max 0 (min 88 (0 + t.indexAt c)) := indexUpdate_toNat t 0 c
    exact BitVec.eq_of_toNat_eq (show _ = 0 by omega)

/-! ### Ranges (R91, R93, R95) -/

/-- Settles O14: the index is clamped, and the prediction is a word of 16 bits. -/
theorem updateKeepsRanges : Obligations.UpdateKeepsRanges := fun t c r =>
  ⟨StateRegister.legal_iff.mp (update_legal t c r), sampleValue_mem (update t c r).pred⟩

/-- Settles O15: the range of the step bounds `diffq`, which bounds the sum; the other ranges stand by themselves. -/
theorem intermediateRanges : Obligations.IntermediateRanges := by
  intro x c r hr
  have hi := StateRegister.legal_iff.mp hr
  obtain ⟨-, hstep⟩ := tableReadsStayInTable.1 r.idx hi
  have hdiffq := dequantize_le c hstep.2
  exact ⟨hstep, diff_mem x r.pred, mag_diff_le x r.pred, hdiffq, predictorSum_mem r.pred c hdiffq,
    (tableReadsStayInTable.2 c).2, index_sum_mem hi c⟩

/-- Settles O16: the error is a difference of two samples. -/
theorem reconstructionErrorBound : Obligations.ReconstructionErrorBound :=
  ⟨fun x r => abs_le.mpr (diff_mem x (encodeSample x r).2.pred), by decide, by decide⟩

end Sys2Proof.Machine
end

section
/-! PROOFS. The decoder mirrors the encoder (40_datapath.md R94): one operation, one edge, the folds, and the machine's streams. -/

namespace Sys2Proof.Machine

/-! ### One operation and one edge -/

/-- Settles O50: ENC and DEC make one and the same state update, of the same code from the same contents. -/
theorem decMirrorsEnc : Obligations.DecMirrorsEnc := by
  intro s x hs hreg
  have henc : exec (.enc x) s = .next (s.setEnc (s.enc.perform (.enc x))) :=
    (exec_encoder_next_iff rfl (by simp)).mpr ⟨fun _ => hs.enc, rfl⟩
  refine ⟨_, _, henc, (exec_decoder_next_iff rfl (by simp)).mpr ⟨fun _ => hs.dec, rfl⟩, ?_, ?_⟩
  all_goals simp [hreg]

/-- Settles O51: the DEC makes the update that the hypothesis names, and the ENC leaves the update of its own code from the
register the DEC arrives at. -/
theorem decoderFollowsOneCycleBehind : Obligations.DecoderFollowsOneCycleBehind := by
  intro s x hs hbehind hline
  obtain ⟨he, hd⟩ := Line.mk.inj hline
  have hstep := step_eq_next (s := s) ⟨fun _ => hs.enc, fun _ => hs.dec⟩
  rw [he, hd] at hstep
  exact ⟨_, hstep, by simp [hbehind], by simp [hbehind]⟩

/-! ### Streams (R102, R112) -/

/-- Decoding the codes of a stream passes through the encoder's states. -/
theorem decodeStates_encodeStream (r : StateRegister) (xs : List Sample) :
    decodeStates r (encodeStream r xs) = encodeStates r xs := by
  induction xs generalizing r with
  | nil => rfl
  | cons x xs ih =>
    rw [encodeStream, decodeStates, encodeStates, ← encodeSample_state, ih]

/-- The samples of a decoded stream are the predictions of the states it passes through. -/
theorem decodeStream_eq_map_pred (r : StateRegister) (ks : List Code) :
    decodeStream r ks = (decodeStates r ks).map StateRegister.pred := by
  induction ks generalizing r with
  | nil => rfl
  | cons k ks ih => rw [decodeStream, decodeStates, List.map_cons, ih]; rfl

theorem encodeStream_length (r : StateRegister) (xs : List Sample) : (encodeStream r xs).length = xs.length := by
  induction xs generalizing r with
  | nil => rfl
  | cons x xs ih => rw [encodeStream, List.length_cons, List.length_cons, ih]

/-- Settles O52: the states agree one by one, and the samples are their predictions. -/
theorem streamsMirror : Obligations.StreamsMirror := fun r xs =>
  ⟨decodeStates_encodeStream r xs, by rw [decodeStream_eq_map_pred, decodeStates_encodeStream], encodeStream_length r xs⟩

/-- The last sample of a decoded stream is the prediction of its last state. -/
theorem getLastD_decodeStream (r : StateRegister) {ks : List Code} (h : ks ≠ []) (y : Sample) :
    (decodeStream r ks).getLastD y = (finalState r (decodeStates r ks)).pred := by
  cases ks with
  | nil => exact absurd rfl h
  | cons k ks => simp [decodeStream_eq_map_pred, decodeStates, finalState, List.getLast?_cons]

/-- Settles O55: the encoder holds the last state of the one fold while the decoder runs the other, from the same stream start
through the same states. -/
theorem roundTripEndsInStep : Obligations.RoundTripEndsInStep := by
  intro s xs rest hs
  rw [List.append_assoc] at hs
  obtain ⟨u, hrunE, heE, -, hinE⟩ := run_encStream hs
  obtain ⟨t, hrunD, hdD, heD, hinD⟩ := run_decStream hinE
  rw [encodeStream_length] at hrunD
  rw [EncChannel.foldl_enc, EncChannel.load_reg] at heE
  rw [DecChannel.foldl_dec, DecChannel.load_reg] at hdD
  have henc : t.enc.reg = finalState .streamStart (encodeStates .streamStart xs) := by rw [heD, heE]; rfl
  have hdec : t.dec.reg = t.enc.reg := by rw [henc, hdD, decodeStates_encodeStream]
  refine ⟨t, (run_add _ hrunE).trans hrunD, hdec, fun hxs => ?_, hinD⟩
  have hks : encodeStream .streamStart xs ≠ [] := by
    rwa [← List.length_pos_iff, encodeStream_length, List.length_pos_iff]
  rw [← hdec, hdD]
  exact ⟨getLastD_decodeStream _ hks _, by simp [hks]⟩

end Sys2Proof.Machine
end

section
/-! PROOFS. The encoder's operations (41_encode.md): ENC, ENOP, the saturated codes, and how long the outputs hold. -/

namespace Sys2Proof.Machine

/-! ### Outputs between results (R103, R169) -/

/-- Without `rst`, a load or an idle edge writes no code. -/
theorem EncChannel.perform_decode_outCode (c : EncChannel) {q : Inputs} (hr : q.rst = false)
    (h : q.encLoad = true ∨ q.encInValid = false) : (c.perform (decodeEcmd q.ecmd)).outCode = c.outCode := by
  rw [decode_ecmd, if_neg (Bool.eq_false_iff.mp hr)]
  split_ifs with hl hv
  · rfl
  · exact absurd h (by simp [hl, hv])
  · rfl

/-- Without `rst`, a load or an idle edge writes no sample. -/
theorem DecChannel.perform_decode_outSample (c : DecChannel) {q : Inputs} (hr : q.rst = false)
    (h : q.decLoad = true ∨ q.decInValid = false) : (c.perform (decodeDcmd q.dcmd)).outSample = c.outSample := by
  rw [decode_dcmd, if_neg (Bool.eq_false_iff.mp hr)]
  split_ifs with hl hv
  · rfl
  · exact absurd h (by simp [hl, hv])
  · rfl

/-- An edge without a request leaves the encoder channel idle. -/
theorem decode_ecmd_of_idle {q : Inputs} (hr : q.rst = false) (hl : q.encLoad = false) (hv : q.encInValid = false) :
    decodeEcmd q.ecmd = .enop :=
  decodeEcmd_of_idle ((pack_r ..).trans hr) ((pack_l ..).trans hl) ((pack_v ..).trans hv)

/-- An edge without a request leaves the decoder channel idle. -/
theorem decode_dcmd_of_idle {q : Inputs} (hr : q.rst = false) (hl : q.decLoad = false) (hv : q.decInValid = false) :
    decodeDcmd q.dcmd = .dnop :=
  decodeDcmd_of_idle ((pack_r ..).trans hr) ((pack_l ..).trans hl) ((pack_v ..).trans hv)

/-- Settles O45: the ports show the registers, a load or an idle operation leaves the output register, and an idle operation writes
the valid bit alone. -/
theorem outputsHoldBetweenResults : Obligations.OutputsHoldBetweenResults := by
  intro s t h hr
  rw [portsShowRegisters s, portsShowRegisters t, step_enc h, step_dec h]
  refine ⟨EncChannel.perform_decode_outCode _ hr, DecChannel.perform_decode_outSample _ hr, ?encIdle, ?decIdle⟩
  case encIdle =>
    rintro ⟨hl, hv⟩
    rw [decode_ecmd_of_idle hr hl hv]
    exact ⟨rfl, rfl⟩
  case decIdle =>
    rintro ⟨hl, hv⟩
    rw [decode_dcmd_of_idle hr hl hv]
    exact ⟨rfl, rfl⟩

/-! ### The largest differences (R100, R84) -/

/-- A magnitude of at least two steps passes all three comparisons of the quantizer: together they take less than two steps (R83). -/
theorem quantize_of_two_mul_le {m st : Nat} (h : 2 * st ≤ m) : quantize m st = ⟨true, true, true⟩ := by
  have h₁ : remainder m st = m - st := by rw [remainder_eq, if_pos (by omega)]
  have h₂ : remainder (m - st) (st / 2) = m - st - st / 2 := by rw [remainder_eq, if_pos (by omega)]
  simp only [quantize, Nat.shiftRight_one, shiftRight_two, h₁, h₂, reaches, Magnitude.mk.injEq, decide_eq_true_eq]
  omega

/-- Where the sample is at least two steps away from the prediction, the code is the sign and three ones. -/
theorem encodeCode_of_two_mul_le {t : Rom} {x p : Sample} {i : StepIndex} (h : 2 * t.stepAt i ≤ mag (diff x p)) :
    encodeCode t x ⟨p, i⟩ = assemble (sign (diff x p)) ⟨true, true, true⟩ := by
  rw [encodeCode, quantize_of_two_mul_le h]

/-- Settles O10: the two magnitudes are 65535, and no step of the table is above half of that. -/
theorem largestDifferencesSaturate : Obligations.LargestDifferencesSaturate := by
  intro i hi
  obtain ⟨-, -, hstep⟩ := tableReadsStayInTable.1 i hi
  have hpos : mag (diff 0x7FFF 0x8000) = 65535 := by decide
  have hneg : mag (diff 0x8000 0x7FFF) = 65535 := by decide
  constructor
  · rw [encodeCode_of_two_mul_le (by rw [hpos]; omega)]
    decide
  · rw [encodeCode_of_two_mul_le (by rw [hneg]; omega)]
    decide

/-! ### ENC and ENOP (R100, R101) -/

/-- An initialised channel after an ENC, field by field (R100). -/
theorem EncChannel.emit_of_initialised {c : EncChannel} (h : c.initialised = true) (r : StateRegister) (k : Code) :
    c.emit r k = { reg := r, initialised := true, outCode := k, outValid := true } := by
  simp [EncChannel.emit, EncChannel.setValid, h]

/-- Settles O28: ENC completes exactly on an initialised channel, and then writes the channel as R100 lists it. -/
theorem encEncodesSample : Obligations.EncEncodesSample := by
  refine ⟨fun w => decodeEcmd_of_valid, fun s x hi => ifInitialised_fault.mpr ⟨hi, rfl⟩, ?_⟩
  rintro s x c hi rfl
  refine (exec_encoder_next_iff rfl Instr.noConfusion).mpr ⟨fun _ => hi, ?_⟩
  rw [EncChannel.perform_enc, EncChannel.emit_of_initialised hi]
  rfl

/-- ENC neither reads the valid bit nor keeps what it was (R100). -/
theorem exec_enc_setValid (s : State) (v : Bool) (x : Sample) :
    exec (.enc x) (s.setEnc (s.enc.setValid v)) = exec (.enc x) s := rfl

/-- Settles O29: ENOP writes the valid bit alone, which no ENC reads. -/
theorem enopClearsValid : Obligations.EnopClearsValid := by
  refine ⟨fun w => decodeEcmd_of_idle, fun s => rfl, fun s t x h => ?_⟩
  obtain ⟨-, rfl⟩ := (exec_encoder_next_iff rfl Instr.noConfusion).mp h
  exact exec_enc_setValid s false x

end Sys2Proof.Machine
end

section
/-! PROOFS. The decoder's operations (42_decode.md): DEC and DNOP. -/

namespace Sys2Proof.Machine

/-- An initialised channel after an update of its state and its sample, field by field (R110). -/
theorem DecChannel.emit_of_initialised {c : DecChannel} (h : c.initialised = true) (r : StateRegister) (y : Sample) :
    c.emit r y = { reg := r, initialised := true, outSample := y, outValid := true } := by
  simp [DecChannel.emit, DecChannel.setValid, h]

/-- Settles O30: DEC completes exactly on an initialised channel, and then writes the channel as R110 lists it. -/
theorem decDecodesCode : Obligations.DecDecodesCode := by
  refine ⟨fun w => decodeDcmd_of_valid, fun s c hi => ifInitialised_fault.mpr ⟨hi, rfl⟩, ?_⟩
  rintro s c r hi rfl
  refine (exec_decoder_next_iff rfl Instr.noConfusion).mpr ⟨fun _ => hi, ?_⟩
  rw [DecChannel.perform_dec, DecChannel.emit_of_initialised hi]
  rfl

/-- DEC neither reads the valid bit nor keeps what it was (R110). -/
theorem exec_dec_setValid (s : State) (v : Bool) (c : Code) :
    exec (.dec c) (s.setDec (s.dec.setValid v)) = exec (.dec c) s := rfl

/-- Settles O31: DNOP writes the valid bit alone, which no DEC reads. -/
theorem dnopClearsValid : Obligations.DnopClearsValid := by
  refine ⟨fun w => decodeDcmd_of_idle, fun s => rfl, fun s t c h => ?_⟩
  obtain ⟨-, rfl⟩ := (exec_decoder_next_iff rfl Instr.noConfusion).mp h
  exact exec_dec_setValid s false c

end Sys2Proof.Machine
end

section
/-! PROOFS. Reset, loads and initialisation (43_state_control.md): RST, LDE, LDD, and what holds once both channels are initialised. -/

namespace Sys2Proof.Machine

/-! ### Both channels initialised (R125, R163) -/

/-- A state with both channels initialised accepts every line: neither fault of R145 has its cause. -/
theorem State.Ready.accepts {s : State} (h : s.Ready) (l : Line) : s.Accepts l where
  enc _ := h.enc
  dec _ := h.dec

/-- No line makes an initialised channel uninitialised (R125). -/
theorem State.Ready.afterLine {s : State} (h : s.Ready) (l : Line) : (s.afterLine l).Ready where
  enc := EncChannel.perform_initialised h.enc l.e
  dec := DecChannel.perform_initialised h.dec l.d

/-- With both channels initialised, an edge performs the line its ports decode to, whatever that line is. -/
theorem State.Ready.step_eq {s : State} (h : s.Ready) : step s = .next (s.afterLine (decodeLine s.pins)) :=
  step_eq_next (h.accepts _)

/-- Settles O40: the decoded line is accepted, and performing it keeps both channels initialised. -/
theorem readyStepCompletes : Obligations.ReadyStepCompletes := fun s h =>
  ⟨s.afterLine (decodeLine s.pins), h.step_eq, h.afterLine _, rfl, rfl⟩

/-- Settles O41, by induction on the length of the run: each edge completes and leaves the state of the next edge ready. -/
theorem readyRunNeverStops : Obligations.ReadyRunNeverStops := by
  intro n
  induction n with
  | zero => exact fun s h => ⟨s, rfl, h⟩
  | succ n ih =>
    intro s h
    obtain ⟨u, hstep, hu, -⟩ := readyStepCompletes s h
    rw [run_succ_of_next n hstep]
    exact ih u hu

/-! ### RST and the loads (R120, R121, R122) -/

/-- The saturation of a load index (R121, decision D7). -/
theorem saturateIndex_eq (i : StepIndex) : saturateIndex i = if i.toNat ≤ 88 then i else 88 := by
  split_ifs with h
  · exact saturateIndex_of_le h
  · exact saturateIndex_of_gt (Nat.lt_of_not_le h)

/-- Settles O25: bit 41 has priority over the other bits on both channels, and RST writes both channels whole. -/
theorem rstResetsBothChannels : Obligations.RstResetsBothChannels :=
  ⟨fun _ hr => ⟨decodeEcmd_of_rst hr, decodeDcmd_of_rst hr⟩, fun _ => rfl⟩

/-- Settles O26: an LDE reads nothing it could fault on, and what it writes to the index is the saturated operand. -/
theorem ldeLoadsEncoder : Obligations.LdeLoadsEncoder := by
  refine ⟨fun w => decodeEcmd_of_load, fun s p i => ?_⟩
  rw [← saturateIndex_eq]
  rfl

/-- Settles O27: an LDD reads nothing it could fault on, and what it writes to the index is the saturated operand. -/
theorem lddLoadsDecoder : Obligations.LddLoadsDecoder := by
  refine ⟨fun w => decodeDcmd_of_load, fun s p i => ?_⟩
  rw [← saturateIndex_eq]
  rfl

end Sys2Proof.Machine
end

section
/-! PROOFS. The model-level faults (60_exceptions.md): where an edge raises one, and which. -/

namespace Sys2Proof.Machine

/-! ### Where an edge encodes or decodes (R65, R66) -/

/-- The encoder channel decodes ENC exactly where a sample is offered without `rst` and without a load. -/
theorem decode_ecmd_eq_enc_iff (q : Inputs) :
    (∃ x, decodeEcmd q.ecmd = .enc x) ↔ q.rst = false ∧ q.encLoad = false ∧ q.encInValid = true := by
  rw [decode_ecmd]
  split_ifs with hr hl hv <;> simp [*]

/-- The decoder channel decodes DEC exactly where a code is offered without `rst` and without a load. -/
theorem decode_dcmd_eq_dec_iff (q : Inputs) :
    (∃ k, decodeDcmd q.dcmd = .dec k) ↔ q.rst = false ∧ q.decLoad = false ∧ q.decInValid = true := by
  rw [decode_dcmd]
  split_ifs with hr hl hv <;> simp [*]

/-! ### The cause of a fault (R145) -/

/-- The encoder channel decodes ENC and was never initialised: the cause of its fault. -/
def State.EncFaults (s : State) : Prop := (∃ x, decodeEcmd s.pins.ecmd = .enc x) ∧ s.enc.initialised = false

/-- The decoder channel decodes DEC and was never initialised: the cause of its fault. -/
def State.DecFaults (s : State) : Prop := (∃ k, decodeDcmd s.pins.dcmd = .dec k) ∧ s.dec.initialised = false

/-- The cause of the encoder's fault, read off the ports. -/
theorem State.encFaults_iff {s : State} : s.EncFaults ↔
    (s.pins.rst = false ∧ s.pins.encLoad = false ∧ s.pins.encInValid = true) ∧ s.enc.initialised = false :=
  and_congr_left' (decode_ecmd_eq_enc_iff _)

/-- The cause of the decoder's fault, read off the ports. -/
theorem State.decFaults_iff {s : State} : s.DecFaults ↔
    (s.pins.rst = false ∧ s.pins.decLoad = false ∧ s.pins.decInValid = true) ∧ s.dec.initialised = false :=
  and_congr_left' (decode_dcmd_eq_dec_iff _)

/-- Under `rst` neither channel has a cause to fault. -/
theorem State.not_faults_of_rst {s : State} (hr : s.pins.rst = true) : ¬ s.EncFaults ∧ ¬ s.DecFaults := by
  simp [State.encFaults_iff, State.decFaults_iff, hr]

/-- Where the encoder channel's operation completes, that channel has no cause to fault. -/
theorem State.not_encFaults_of_exec {s t : State} (hr : s.pins.rst = false)
    (h : exec (decodeEcmd s.pins.ecmd) s.advance = .next t) : ¬ s.EncFaults := by
  have hne : decodeEcmd s.pins.ecmd ≠ .rst := mt (decode_ecmd_eq_rst _).mp (Bool.eq_false_iff.mp hr)
  obtain ⟨hinit, -⟩ := (exec_encoder_next_iff (decodeEcmd_fits _) hne).mp h
  exact fun ⟨henc, hi⟩ => Bool.eq_false_iff.mp hi (hinit henc)

/-- Where the decoder channel's operation completes after the encoder channel's write, the decoder channel has no cause to fault. -/
theorem State.not_decFaults_of_exec {s t : State} {c : EncChannel} (hr : s.pins.rst = false)
    (h : exec (decodeDcmd s.pins.dcmd) (s.advance.setEnc c) = .next t) : ¬ s.DecFaults := by
  have hne : decodeDcmd s.pins.dcmd ≠ .rst := mt (decode_dcmd_eq_rst _).mp (Bool.eq_false_iff.mp hr)
  obtain ⟨hinit, -⟩ := (exec_decoder_next_iff (decodeDcmd_fits _) hne).mp h
  exact fun ⟨hdec, hi⟩ => Bool.eq_false_iff.mp hi (hinit hdec)

/-- A step completes where neither channel has a cause to fault; otherwise it raises the encoder's fault where the encoder has cause, and
the decoder's where the decoder alone has (log entry 6). -/
theorem step_fault_cases (s : State) :
    ((∃ t, step s = .next t) ∧ ¬ s.EncFaults ∧ ¬ s.DecFaults) ∨
    (step s = .fault .uninitialisedE ∧ s.EncFaults) ∨
    (step s = .fault .uninitialisedD ∧ s.DecFaults ∧ ¬ s.EncFaults) := by
  obtain ⟨hr, hs⟩ | ⟨hr, c, d, hs, he, hd⟩ | ⟨-, hs, hi, hx⟩ | ⟨hr, hs, hi, hk, c, he⟩ := step_cases s
  · exact .inl ⟨⟨_, hs⟩, State.not_faults_of_rst hr⟩
  · exact .inl ⟨⟨_, hs⟩, State.not_encFaults_of_exec hr he, State.not_decFaults_of_exec hr hd⟩
  · exact .inr (.inl ⟨hs, hx, hi⟩)
  · exact .inr (.inr ⟨hs, ⟨hk, hi⟩, State.not_encFaults_of_exec hr he⟩)

/-- Settles O39: the three answers a step can give exclude each other, and so do the causes they come with. -/
theorem stepFaultsExactlyWhen : Obligations.StepFaultsExactlyWhen := by
  intro s
  rw [← State.encFaults_iff, ← and_assoc (c := ¬ _), ← State.decFaults_iff]
  obtain ⟨⟨t, hs⟩, he, hd⟩ | ⟨hs, he⟩ | ⟨hs, hd, he⟩ := step_fault_cases s <;> simp [*]

end Sys2Proof.Machine
end

section
/-! PROOFS. Reset, power-up and dropped requests (70_reset_and_hazards.md). -/

namespace Sys2Proof.Machine

/-! ### Requests dropped by priority (R144, R166) -/

section dropped
variable {q : Inputs}

/-- Under `rst` or a load the encoder channel does not read its sample or the valid bit beside it. -/
theorem decode_ecmd_drop_sample (h : q.rst = true ∨ q.encLoad = true) (v : Bool) (x : Sample) :
    decodeEcmd { q with encInValid := v, encInSample := x }.ecmd = decodeEcmd q.ecmd := by
  rw [decode_ecmd, decode_ecmd]
  obtain hr | hl := h
  · simp [hr]
  · simp [hl]

/-- Under `rst` or a load the decoder channel does not read its code or the valid bit beside it. -/
theorem decode_dcmd_drop_code (h : q.rst = true ∨ q.decLoad = true) (v : Bool) (c : Code) :
    decodeDcmd { q with decInValid := v, decInCode := c }.dcmd = decodeDcmd q.dcmd := by
  rw [decode_dcmd, decode_dcmd]
  obtain hr | hl := h
  · simp [hr]
  · simp [hl]

end dropped

/-- A step depends on the ports only through what the two channels decode (R68). -/
theorem step_drive_congr {p q : Inputs} (s : State) (he : decodeEcmd p.ecmd = decodeEcmd q.ecmd)
    (hd : decodeDcmd p.dcmd = decodeDcmd q.dcmd) : step (s.drive p) = step (s.drive q) := by
  obtain ⟨-, -, -, -, -, hstep⟩ := ignoredFieldsHaveNoEffect
  exact hstep s p q (congrArg₂ Line.mk he hd)

/-- Under `rst` a step does not read the rest of the ports. -/
theorem step_drive_of_rst {p q : Inputs} (s : State) (hp : p.rst = true) (hq : q.rst = true) :
    step (s.drive p) = step (s.drive q) :=
  (step_of_rst (s := s.drive p) hp).trans (step_of_rst (s := s.drive q) hq).symm

/-- Settles O47: a request below a load leaves what its channel decodes, and does not enter the other channel's bundle; `rst` alone
decides the step. -/
theorem lowerRequestsAreDropped : Obligations.LowerRequestsAreDropped := by
  intro s p
  refine ⟨fun h v x => ?encValid, fun h v c => ?decValid, fun hr l q i => ?load⟩
  case encValid => exact step_drive_congr s (decode_ecmd_drop_sample h v x) rfl
  case decValid => exact step_drive_congr s rfl (decode_dcmd_drop_code h v c)
  case load => exact ⟨step_drive_of_rst s hr hr, step_drive_of_rst s hr hr⟩

/-! ### Reset and power-up (R160 to R162) -/

/-- Settles O38: under `rst` the edge runs RST, which writes every register of both channels and reads none. -/
theorem resetEdgeSuffices : Obligations.ResetEdgeSuffices := fun _ hr =>
  ⟨_, step_of_rst hr, rfl, rfl, rfl, rfl, rfl, rfl, rfl, rfl, rfl, rfl⟩

/-- The invariant says nothing of the registers of a channel that was never initialised (R161). -/
theorem State.inv_of_uninitialised {s : State} (he : s.enc.initialised = false) (hd : s.dec.initialised = false) : s.Inv where
  encIndex hi := absurd hi (Bool.eq_false_iff.mp he)
  decIndex hi := absurd hi (Bool.eq_false_iff.mp hd)
  decShown hi := absurd hi (Bool.eq_false_iff.mp hd)

/-- Index 0 is legal, and the sample register and the prediction are both 0 after reset. -/
theorem State.reset_inv : State.reset.Inv where
  encIndex _ := rfl
  decIndex _ := rfl
  decShown _ _ := rfl

/-- Settles O43: RST initialises both channels at legal values, and at power-up the invariant asks nothing of either. -/
theorem resetAndPowerUpMeetInvariant : Obligations.ResetAndPowerUpMeetInvariant :=
  ⟨State.reset_inv, ⟨rfl, rfl⟩, State.inv_of_uninitialised rfl rfl, rfl, rfl⟩

end Sys2Proof.Machine
end
